-- ==== Sys2Proof/Word.lean ====
section
/-! DEFINITION. The widths of the decoder's values (00_scope.md R11, R12). -/

namespace Sys2Proof

/-- An 8-bit stream element or 8-bit immediate (00_scope.md R11, R12). -/
abbrev Byte := BitVec 8

/-- A 16-bit displacement, immediate or direct address (00_scope.md R11, R12). -/
abbrev Word := BitVec 16

/-- A ModRM `mod` field (30_encoding.md R55). -/
abbrev ModField := BitVec 2

/-- A ModRM `reg` or `rm` field, or the register code of an opcode byte (30_encoding.md R55, R81). -/
abbrev RegCode := BitVec 3

end Sys2Proof
end

