-- ==== Sys2Proof/Syntax.lean ====
section
/-! DEFINITION. The admitted instructions, one constructor per row of spec/opcode_table.json, and the parts of a
dispatch-table row (30_encoding.md R53-R82). -/

namespace Sys2Proof

/-- The width flag `w`: 0 = 8-bit, 1 = 16-bit (30_encoding.md R67, R79). -/
inductive Width where
  | w8
  | w16
deriving DecidableEq, Repr

/-- The base of a memory operand (10_state.md R21, 30_encoding.md R68). -/
inductive EaBase where
  | bxSi
  | bxDi
  | bpSi
  | bpDi
  | si
  | di
  | bp
  | bx
  | direct
deriving DecidableEq, Repr

/-- The register-or-memory operand of a ModRM instruction, as the stream holds it (30_encoding.md R69-R74). -/
inductive RmOperand where
  /-- mod = 3: a register code (R69). -/
  | reg (code : RegCode)
  /-- mod = 0, rm = 110b: a 16-bit direct address (R71). -/
  | direct (addr : Word)
  /-- mod = 0, any other rm: a base alone (R70). -/
  | noDisp (base : EaBase)
  /-- mod = 1: a base and one displacement byte (R73). -/
  | disp8 (base : EaBase) (d : Byte)
  /-- mod = 2: a base and a displacement word (R74). -/
  | disp16 (base : EaBase) (d : Word)
deriving DecidableEq, Repr

/-- The admitted instructions: one constructor per row of spec/opcode_table.json (30_encoding.md R80).
`reg` is the register operand; `regField` is the ModRM `reg` field of C6 and C7, which is no operand but which
`IMM_RM_REG_POLICY` may examine (42_mov_imm_rm.md R111). -/
inductive Instr where
  /-- 88 /r: MOV r/m8, r8 (40_mov_rm_reg.md R101). -/
  | movRm8R8 (reg : RegCode) (rm : RmOperand)
  /-- 89 /r: MOV r/m16, r16 (40_mov_rm_reg.md R102). -/
  | movRm16R16 (reg : RegCode) (rm : RmOperand)
  /-- 8A /r: MOV r8, r/m8 (40_mov_rm_reg.md R103). -/
  | movR8Rm8 (reg : RegCode) (rm : RmOperand)
  /-- 8B /r: MOV r16, r/m16 (40_mov_rm_reg.md R104). -/
  | movR16Rm16 (reg : RegCode) (rm : RmOperand)
  /-- B0+r ib: MOV r8, imm8 (41_mov_imm_reg.md R107). -/
  | movR8Imm8 (reg : RegCode) (imm : Byte)
  /-- B8+r iw: MOV r16, imm16 (41_mov_imm_reg.md R108). -/
  | movR16Imm16 (reg : RegCode) (imm : Word)
  /-- C6 ib: MOV r/m8, imm8 (42_mov_imm_rm.md R113). -/
  | movRm8Imm8 (regField : RegCode) (rm : RmOperand) (imm : Byte)
  /-- C7 iw: MOV r/m16, imm16 (42_mov_imm_rm.md R114). -/
  | movRm16Imm16 (regField : RegCode) (rm : RmOperand) (imm : Word)
deriving DecidableEq, Repr

/-- The class of a descriptor (30_encoding.md R79). -/
inductive OpClass where
  | rmReg
  | immReg
  | immRm
deriving DecidableEq, Repr

/-- The mnemonic of a record or descriptor (10_state.md R20, 30_encoding.md R79). -/
inductive Mnemonic where
  | mov
deriving DecidableEq, Repr

/-- The per-opcode descriptor (30_encoding.md R79). `d` is the direction flag (true = 1: `reg` is the
destination), meaningful for `rmReg` only. -/
structure Descriptor where
  cls : OpClass
  w : Width
  /-- The direction flag, meaningful for class RM_REG only (30_encoding.md R79). The spec gives the other rows no value;
  the model fills in `false`. DESIGN CHOICE, safe: log 18. -/
  d : Bool
  hasModRM : Bool
  mnemonic : Mnemonic
deriving DecidableEq, Repr

/-- One row of the dispatch table: the first bytes `b0` with `b0 &&& mask = pattern` have descriptor `desc`
(30_encoding.md R80; the mask and match columns of spec/opcode_table.json). -/
structure DispatchRow where
  mask : Byte
  pattern : Byte
  desc : Descriptor
deriving DecidableEq, Repr

end Sys2Proof
end

