-- ==== Sys2Proof/WellFormed.lean ====
section
/-! DEFINITION. Which r/m operands and instructions have an encoding (30_encoding.md R68-R75). -/

namespace Sys2Proof

/-- An r/m operand some ModRM byte encodes: `DIRECT` has no displacement form, and `[bp]` without a displacement
cannot be encoded, because mod = 0 with rm = 110b is the direct address (30_encoding.md R68, R71;
40_mov_rm_reg.md R104: "There is no `[bp]` form without a displacement"). -/
def RmOperand.wf : RmOperand → Bool
  | .reg _ => true
  | .direct _ => true
  | .noDisp base => base != .bp && base != .direct
  | .disp8 base _ => base != .direct
  | .disp16 base _ => base != .direct

/-- An instruction some byte sequence encodes. -/
def Instr.wf : Instr → Bool
  | .movRm8R8 _ rm => rm.wf
  | .movRm16R16 _ rm => rm.wf
  | .movR8Rm8 _ rm => rm.wf
  | .movR16Rm16 _ rm => rm.wf
  | .movR8Imm8 _ _ => true
  | .movR16Imm16 _ _ => true
  | .movRm8Imm8 _ rm _ => rm.wf
  | .movRm16Imm16 _ rm _ => rm.wf

end Sys2Proof
end

