-- ==== Sys2Proof/Decode.lean ====
section
/-! DEFINITION. Bit-field extraction, byte order, the dispatch table, the decoder and the encoder
(30_encoding.md R53-R90). -/

namespace Sys2Proof

/-! ### ModRM fields (R55) -/

/-- `mod(m) = m[7:6]` (30_encoding.md R55). -/
def modOf (m : Byte) : ModField := m.extractLsb' 6 2

/-- `reg(m) = m[5:3]` (30_encoding.md R55). -/
def regOf (m : Byte) : RegCode := m.extractLsb' 3 3

/-- `rm(m) = m[2:0]` (30_encoding.md R55). -/
def rmOf (m : Byte) : RegCode := m.extractLsb' 0 3

/-- The ModRM byte with the given fields (30_encoding.md R55, the layout `| mod | reg | rm |`). -/
def modRMByte (mod : ModField) (reg rm : RegCode) : Byte := (mod ++ reg ++ rm : BitVec (2 + 3 + 3))

/-! ### Byte order (R58) -/

/-- `le16(lo, hi) = hi * 256 + lo` (30_encoding.md R58). -/
def le16 (lo hi : Byte) : Word := (hi ++ lo : BitVec (8 + 8))

/-- The byte of a word that stands at the lower stream offset (20_memory.md R43). -/
def lowByte (v : Word) : Byte := v.extractLsb' 0 8

/-- The byte of a word that stands at the higher stream offset (20_memory.md R43). -/
def highByte (v : Word) : Byte := v.extractLsb' 8 8

/-! ### Addressing forms (R68, R72) -/

/-- `eaBase(mod, rm)`, the base table under mod in 0, 1, 2 (30_encoding.md R68). Under mod = 3 the r/m operand is a
register and the table does not apply. -/
def eaBase (mod : ModField) (rm : RegCode) : EaBase :=
  match rm.toNat with
  | 0 => .bxSi
  | 1 => .bxDi
  | 2 => .bpSi
  | 3 => .bpDi
  | 4 => .si
  | 5 => .di
  | 6 => if mod = 0 then .direct else .bp
  | _ => .bx

/-- `dispLen(mod, rm)`, the stream bytes the r/m operand takes after the ModRM byte (30_encoding.md R72). -/
def dispLen (mod : ModField) (rm : RegCode) : Nat :=
  if mod = 0 then (if rm = 6 then 2 else 0)
  else if mod = 1 then 1
  else if mod = 2 then 2
  else 0

/-- `immLen(w)` (30_encoding.md R64, R82). -/
def immLen : Width → Nat
  | .w8 => 1
  | .w16 => 2

/-! ### The dispatch table (R79, R80) -/

/-- The eight rows of the dispatch table (30_encoding.md R80). The byte values not shown by a worked example of the
source are general knowledge of the 8086, as the spec marks them. PRESUMED (the spec's G2, D2), unsafe: log 5. The third
column is d; in the rows other than RM_REG, where R80 has '-', its `false` is the model's filler, which nothing reads.
DESIGN CHOICE, safe: log 18. -/
def dispatchTable : List DispatchRow :=
  [ ⟨0xFF, 0x88, ⟨.rmReg, .w8, false, true, .mov⟩⟩,
    ⟨0xFF, 0x89, ⟨.rmReg, .w16, false, true, .mov⟩⟩,
    ⟨0xFF, 0x8A, ⟨.rmReg, .w8, true, true, .mov⟩⟩,
    ⟨0xFF, 0x8B, ⟨.rmReg, .w16, true, true, .mov⟩⟩,
    ⟨0xF8, 0xB0, ⟨.immReg, .w8, false, false, .mov⟩⟩,
    ⟨0xF8, 0xB8, ⟨.immReg, .w16, false, false, .mov⟩⟩,
    ⟨0xFF, 0xC6, ⟨.immRm, .w8, false, true, .mov⟩⟩,
    ⟨0xFF, 0xC7, ⟨.immRm, .w16, false, true, .mov⟩⟩ ]

/-- The row covers the first byte. -/
def DispatchRow.covers (r : DispatchRow) (b0 : Byte) : Bool := b0 &&& r.mask == r.pattern

/-- `DISPATCH[b0]`; `none` is NULL, an unassigned first byte (30_encoding.md R80, R87). -/
def dispatch (b0 : Byte) : Option Descriptor :=
  (dispatchTable.find? (fun r => r.covers b0)).map (fun r => r.desc)

/-- The register code of an immediate-to-register opcode byte, `b0[2:0]` (30_encoding.md R81). -/
def opcodeReg (b0 : Byte) : RegCode := b0.extractLsb' 0 3

/-- `length(b0, m)` (30_encoding.md R82), from the descriptor and the ModRM fields. -/
def Descriptor.length (desc : Descriptor) (mod : ModField) (rm : RegCode) : Nat :=
  match desc.cls with
  | .rmReg => 2 + dispLen mod rm
  | .immReg => 1 + immLen desc.w
  | .immRm => 2 + dispLen mod rm + immLen desc.w

/-! ### The decoder (R53, R69-R75, R84) -/

/-- Why the bytes at an offset are no complete instruction. -/
inductive DecodeError where
  /-- There is no byte at all. -/
  | noByte
  /-- The first byte has no descriptor (30_encoding.md R87). -/
  | unassigned
  /-- The bytes end before the instruction does (30_encoding.md R86). `immRmModRM` is the ModRM byte where one was
  read for a C6 or C7: its refusal checks come before the length check (60_exceptions.md R123). -/
  | truncated (immRmModRM : Option Byte)
deriving DecidableEq, Repr

/-- The addressing-mode resolver on the bytes after the ModRM byte: the r/m operand and the bytes left, or `none`
where the displacement or address is cut off (30_encoding.md R69-R75). -/
def resolveRm (mod : ModField) (rm : RegCode) (bs : List Byte) : Option (RmOperand × List Byte) :=
  if mod = 0 then
    if rm = 6 then
      match bs with
      | lo :: hi :: rest => some (.direct (le16 lo hi), rest)
      | _ => none
    else some (.noDisp (eaBase mod rm), bs)
  else if mod = 1 then
    match bs with
    | d :: rest => some (.disp8 (eaBase mod rm) d, rest)
    | _ => none
  else if mod = 2 then
    match bs with
    | lo :: hi :: rest => some (.disp16 (eaBase mod rm) (le16 lo hi), rest)
    | _ => none
  else some (.reg rm, bs)

/-- The instruction of class `RM_REG` with the given descriptor flags (40_mov_rm_reg.md R101-R104). -/
def rmRegInstr (w : Width) (d : Bool) (reg : RegCode) (rm : RmOperand) : Instr :=
  match w, d with
  | .w8, false => .movRm8R8 reg rm
  | .w16, false => .movRm16R16 reg rm
  | .w8, true => .movR8Rm8 reg rm
  | .w16, true => .movR16Rm16 reg rm

/-- The instruction of class `IMM_REG` from its opcode byte and the bytes after it (41_mov_imm_reg.md R106). -/
def decodeImmReg (w : Width) (b0 : Byte) (bs : List Byte) : Except DecodeError (Instr × List Byte) :=
  match w, bs with
  | .w8, v :: rest => .ok (.movR8Imm8 (opcodeReg b0) v, rest)
  | .w16, lo :: hi :: rest => .ok (.movR16Imm16 (opcodeReg b0) (le16 lo hi), rest)
  | _, _ => .error (.truncated none)

/-- The instruction of class `RM_REG` from its ModRM byte and the bytes after it (40_mov_rm_reg.md R100). -/
def decodeRmReg (w : Width) (d : Bool) (m : Byte) (bs : List Byte) : Except DecodeError (Instr × List Byte) :=
  match resolveRm (modOf m) (rmOf m) bs with
  | some (rm, rest) => .ok (rmRegInstr w d (regOf m) rm, rest)
  | none => .error (.truncated none)

/-- The instruction of class `IMM_RM` from its ModRM byte and the bytes after it (42_mov_imm_rm.md R110). -/
def decodeImmRm (w : Width) (m : Byte) (bs : List Byte) : Except DecodeError (Instr × List Byte) :=
  match resolveRm (modOf m) (rmOf m) bs with
  | some (rm, rest) =>
    match w, rest with
    | .w8, v :: rest' => .ok (.movRm8Imm8 (regOf m) rm v, rest')
    | .w16, lo :: hi :: rest' => .ok (.movRm16Imm16 (regOf m) rm (le16 lo hi), rest')
    | _, _ => .error (.truncated (some m))
  | none => .error (.truncated (some m))

/-- The decoder: the instruction at the front of a byte sequence and the bytes after it, or why there is none. One
shared routine reads the descriptor (30_encoding.md R79, R84). The refusals of R111 and R112 are no part of it: they
belong to the meanings of C6 and C7, which hold the parameters. -/
def decode (bs : List Byte) : Except DecodeError (Instr × List Byte) :=
  match bs with
  | [] => .error .noByte
  | b0 :: rest =>
    match dispatch b0 with
    | none => .error .unassigned
    | some desc =>
      match desc.cls with
      | .immReg => decodeImmReg desc.w b0 rest
      | .rmReg =>
        match rest with
        | [] => .error (.truncated none)
        | m :: rest' => decodeRmReg desc.w desc.d m rest'
      | .immRm =>
        match rest with
        | [] => .error (.truncated none)
        | m :: rest' => decodeImmRm desc.w m rest'

/-- The longest admitted instruction, in bytes (30_encoding.md R54; 42_mov_imm_rm.md R114). -/
def maxInstrLength : Nat := 6

/-- The bytes of a number, lowest first: the first byte of an instruction is the table's bits 7..0. -/
def bytesOfNat : Nat → Nat → List Byte
  | 0, _ => []
  | k + 1, w => BitVec.ofNat 8 w :: bytesOfNat k (w / 256)

/-- The six bytes that begin with the `nbits` low bits of `w`; every higher bit is 0. -/
def tableBytes (nbits w : Nat) : List Byte := bytesOfNat maxInstrLength (w % 2 ^ nbits)

/-- The instruction the decoder reads from a word numbered as spec/opcode_table.json numbers it. -/
def decodeTableWord (nbits w : Nat) : Option Instr :=
  match decode (tableBytes nbits w) with
  | .ok (i, _) => some i
  | .error _ => none

/-! ### The encoder (R53, R55, R80) -/

/-- The rm code of a base (30_encoding.md R68). -/
def EaBase.rmCode : EaBase → RegCode
  | .bxSi => 0
  | .bxDi => 1
  | .bpSi => 2
  | .bpDi => 3
  | .si => 4
  | .di => 5
  | .bp => 6
  | .direct => 6
  | .bx => 7

/-- The ModRM `mod` field of an r/m operand (30_encoding.md R56, R69-R74). -/
def RmOperand.modField : RmOperand → ModField
  | .reg _ => 3
  | .direct _ => 0
  | .noDisp _ => 0
  | .disp8 _ _ => 1
  | .disp16 _ _ => 2

/-- The ModRM `rm` field of an r/m operand (30_encoding.md R68-R74). -/
def RmOperand.rmField : RmOperand → RegCode
  | .reg code => code
  | .direct _ => 6
  | .noDisp base => base.rmCode
  | .disp8 base _ => base.rmCode
  | .disp16 base _ => base.rmCode

/-- The bytes of a 16-bit field in stream order (20_memory.md R43). -/
def wordBytes (v : Word) : List Byte := [lowByte v, highByte v]

/-- The displacement or address bytes after the ModRM byte (30_encoding.md R59-R61, R64). -/
def RmOperand.dispBytes : RmOperand → List Byte
  | .reg _ => []
  | .direct addr => wordBytes addr
  | .noDisp _ => []
  | .disp8 _ d => [d]
  | .disp16 _ d => wordBytes d

/-- The ModRM byte and the displacement bytes of an r/m operand with the given `reg` field (30_encoding.md R53). -/
def encodeModRM (reg : RegCode) (rm : RmOperand) : List Byte :=
  modRMByte rm.modField reg rm.rmField :: rm.dispBytes

/-- The bytes of an instruction (30_encoding.md R53, R80). -/
def encode : Instr → List Byte
  | .movRm8R8 reg rm => 0x88 :: encodeModRM reg rm
  | .movRm16R16 reg rm => 0x89 :: encodeModRM reg rm
  | .movR8Rm8 reg rm => 0x8A :: encodeModRM reg rm
  | .movR16Rm16 reg rm => 0x8B :: encodeModRM reg rm
  | .movR8Imm8 reg imm => [0b10110#5 ++ reg, imm]
  | .movR16Imm16 reg imm => (0b10111#5 ++ reg : BitVec (5 + 3)) :: wordBytes imm
  | .movRm8Imm8 regField rm imm => 0xC6 :: (encodeModRM regField rm ++ [imm])
  | .movRm16Imm16 regField rm imm => 0xC7 :: (encodeModRM regField rm ++ wordBytes imm)

end Sys2Proof
end

