-- ==== Sys2Proof/Config.lean ====
section
/-! DEFINITION. The default of `START` (00_scope.md R8), the implementation parameters that govern C6 and C7
(00_scope.md R9, R10), and the one free value of a text (30_encoding.md R99). -/

namespace Sys2Proof

/-- The default of `START`, the offset at which a run begins: the first byte of the text segment (00_scope.md R8,
20_memory.md R45). `START` is a parameter of each run and so an argument of `RESET`, which takes this value where the
host gives none. -/
def defaultStart : Nat := 0

/-- `IMM_RM_REG_POLICY` (00_scope.md R9): what the ModRM `reg` field of C6 and C7 does. -/
inductive RegPolicy where
  /-- The field is not examined (the default). -/
  | ignore
  /-- A nonzero field is refused. -/
  | refuse
deriving DecidableEq, Repr

/-- `IMM_RM_DISP_RULE` (00_scope.md R10): the displacement length of C6 and C7. -/
inductive DispRule where
  /-- The mod-dependent rule of 30_encoding.md R72 (the default). -/
  | general
  /-- Only (mod, rm) = (0, 110b) is admitted. -/
  | refuseUndecided
deriving DecidableEq, Repr

/-- The parameters of the decode step that are fixed for a run (10_state.md R18). -/
structure Params where
  regPolicy : RegPolicy
  dispRule : DispRule
deriving DecidableEq, Repr

/-- The default values the spec gives the parameters (00_scope.md R9, R10).
DESIGN CHOICE of the spec (D3, D4), unsafe where the reference differs: log 6 and log 7. -/
def Params.default : Params := ⟨.ignore, .general⟩

/-- The number spelled for an offset that has more hexadecimal digits than OFFSET_DIGITS (the first argument): the spec
says the address has a fixed width and not what is written then (30_encoding.md R99, D11). A free value, of which nothing
can be proved. DESIGN CHOICE, safe: log 15. -/
opaque wideOffset : Nat → Nat → Nat

end Sys2Proof
end

