-- ==== Sys2Proof/Machine/State.lean ====
section
/-! DEFINITION. The decoder's state, as plain data (10_state.md R17-R22), the state after reset, and the reasons the
model itself stops. -/

namespace Sys2Proof.Machine

/-- `STATUS` (10_state.md R22). -/
inductive Status where
  /-- `CURSOR < N`; the next `STEP` decodes at `CURSOR`. -/
  | ready
  /-- `CURSOR = N`; the stream is exhausted. -/
  | halted
  /-- A decode fault was taken; the fault registers hold it. -/
  | faulted
  /-- The bytes at `CURSOR` were refused under a non-default parameter. -/
  | refused
deriving DecidableEq, Repr

/-- `FAULT_CODE` (60_exceptions.md R116). -/
inductive FaultCode where
  | none
  | unassignedOpcode
  | truncatedInstruction
  | badStartOffset
deriving DecidableEq, Repr

/-- `REFUSE_REASON` (60_exceptions.md R126). -/
inductive RefuseReason where
  | none
  | regField
  | dispUndecided
deriving DecidableEq, Repr

/-- The displacement of a memory operand (10_state.md R21). -/
inductive Disp where
  | noDisp
  /-- The sign-extended 8-bit displacement. -/
  | d8 (v : Word)
  /-- The 16-bit displacement. -/
  | d16 (v : Word)
  /-- The direct address, used only with base `DIRECT`. -/
  | addr (a : Word)
deriving DecidableEq, Repr

/-- The size keyword of a memory operand (10_state.md R21, 30_encoding.md R98). -/
inductive SizeKw where
  | none
  | byte
  | word
deriving DecidableEq, Repr

/-- An operand of a record (10_state.md R21). `Imm(0, v)` is `imm8 v` and `Imm(1, v)` is `imm16 v`, so that a value
outside the width's range cannot be written down. -/
inductive Operand where
  | reg (w : Width) (code : RegCode)
  | mem (base : EaBase) (disp : Disp) (size : SizeKw)
  | imm8 (v : Byte)
  | imm16 (v : Word)
deriving DecidableEq, Repr

/-- A decoded record (10_state.md R20). -/
structure Record where
  offset : Nat
  length : Nat
  raw : List Byte
  mnemonic : Mnemonic
  operands : List Operand
deriving DecidableEq, Repr

/-- The instruction stream as (offset, byte) cells, offsets strictly rising (20_memory.md R37). An offset that is not
listed has no value: `MemRead` is defined only inside the stream (00_scope.md R13). DESIGN CHOICE, safe: log 4. -/
abbrev Memory := List Host.Cell

/-- The decoder's state: the ten items of 10_state.md R17 and the parameters of the step (10_state.md R18), which the
host's one-argument `step` leaves no other place for. DESIGN CHOICE, safe: log 1. -/
structure State where
  /-- `IMM_RM_REG_POLICY` and `IMM_RM_DISP_RULE`: the model's own field; no command writes it. -/
  params : Params
  /-- `body`: written by RESET only. -/
  body : Memory
  /-- `N`: the length of `body`, written by RESET only. -/
  n : Nat
  /-- `CURSOR` (10_state.md R23). -/
  cursor : Nat
  /-- `STATUS`. -/
  status : Status
  /-- `FAULT_CODE`. -/
  faultCode : FaultCode
  /-- `FAULT_OFFSET`. -/
  faultOffset : Nat
  /-- `FAULT_BYTE`. -/
  faultByte : Byte
  /-- `FAULT_AVAIL`. -/
  faultAvail : Nat
  /-- `REFUSE_REASON`. -/
  refuseReason : RefuseReason
  /-- `OUT`: the records emitted, oldest first. -/
  out : List Record
deriving DecidableEq, Repr

/-- The state after `RESET(empty, 0)` under the default parameters (70_reset_and_hazards.md R137, R138). That the reset
the host asks about is the one with no stream is a DESIGN CHOICE, unsafe: log 3. -/
def State.reset : State where
  params := Params.default
  body := []
  n := 0
  cursor := 0
  status := .halted
  faultCode := .none
  faultOffset := 0
  faultByte := 0x00
  faultAvail := 0
  refuseReason := .none
  out := []

/-- Why the model stops without a next state. The faults of the spec are next states with STATUS = FAULTED
(10_state.md R30; log 2), so they are not here. -/
inductive Fault where
  /-- Raised by `exec` and `step` where a byte is read at an offset `MemRead` does not define (00_scope.md R13): at or
  past N, or missing from the cells. No state that meets `Inv` reaches it. Safe. -/
  | readOutsideStream (offset : Nat)
deriving DecidableEq, Repr

/-- Why the model gives an instruction no meaning. The refusals of the spec are next states with STATUS = REFUSED
(10_state.md R31; log 2), so they are not here. -/
inductive Refusal where
  /-- Raised by an arm of `exec` whose instruction has no meaning yet. Safe. No arm raises it now. -/
  | notModelled (mnemonic : String)
deriving DecidableEq, Repr

/-- The three outcomes of one step of this machine. -/
abbrev Outcome := Host.Outcome State Fault Refusal

end Sys2Proof.Machine
end

