-- ==== Sys2Proof/Machine/Operands.lean ====
section
/-! DEFINITION. The operands and the length of an instruction (30_encoding.md R57-R77, R82, R98). -/

namespace Sys2Proof

open Machine

/-- `sext_16(v)`, the 16-bit sign extension of a byte (30_encoding.md R57). -/
def sext16 (v : Byte) : Word := v.signExtend 16

/-- The operand an r/m field names, for the width and with the size keyword of its instruction: a register carries no
keyword (30_encoding.md R69-R74, R98). -/
def RmOperand.operand (rm : RmOperand) (w : Width) (size : SizeKw) : Operand :=
  match rm with
  | .reg code => .reg w code
  | .direct addr => .mem .direct (.addr addr) size
  | .noDisp base => .mem base .noDisp size
  | .disp8 base d => .mem base (.d8 (sext16 d)) size
  | .disp16 base d => .mem base (.d16 d) size

/-- The operands of an instruction, destination first (30_encoding.md R77). A memory destination of C6 carries `BYTE`
and of C7 `WORD`; no other operand carries a size (R98). -/
def Instr.operands : Instr → List Operand
  | .movRm8R8 reg rm => [rm.operand .w8 .none, .reg .w8 reg]
  | .movRm16R16 reg rm => [rm.operand .w16 .none, .reg .w16 reg]
  | .movR8Rm8 reg rm => [.reg .w8 reg, rm.operand .w8 .none]
  | .movR16Rm16 reg rm => [.reg .w16 reg, rm.operand .w16 .none]
  | .movR8Imm8 reg imm => [.reg .w8 reg, .imm8 imm]
  | .movR16Imm16 reg imm => [.reg .w16 reg, .imm16 imm]
  | .movRm8Imm8 _ rm imm => [rm.operand .w8 .byte, .imm8 imm]
  | .movRm16Imm16 _ rm imm => [rm.operand .w16 .word, .imm16 imm]

/-- The displacement length of an r/m operand (30_encoding.md R72). -/
def RmOperand.dispLength (rm : RmOperand) : Nat := dispLen rm.modField rm.rmField

/-- The length of an instruction in bytes (30_encoding.md R82). -/
def Instr.length : Instr → Nat
  | .movRm8R8 _ rm => 2 + rm.dispLength
  | .movRm16R16 _ rm => 2 + rm.dispLength
  | .movR8Rm8 _ rm => 2 + rm.dispLength
  | .movR16Rm16 _ rm => 2 + rm.dispLength
  | .movR8Imm8 _ _ => 1 + immLen .w8
  | .movR16Imm16 _ _ => 1 + immLen .w16
  | .movRm8Imm8 _ rm _ => 2 + rm.dispLength + immLen .w8
  | .movRm16Imm16 _ rm _ => 2 + rm.dispLength + immLen .w16

end Sys2Proof
end

