-- ==== Sys2Proof/Machine/Ops.lean ====
section
/-! DEFINITION. The shared operations: the stream, reading it, taking a fault or a refusal, emitting a record, and
`RESET`. -/

namespace Sys2Proof.Machine

/-! ### The stream as cells -/

/-- The canonical form of a memory: offsets strictly rising. An unlisted offset has no value, so no entry can repeat
it. -/
def Memory.wf : Memory → Bool
  | [] => true
  | [_] => true
  | c :: d :: rest => decide (c.1 < d.1) && Memory.wf (d :: rest)

/-- The byte at an offset, if one is listed. -/
def Memory.read : Memory → Nat → Option Byte
  | [], _ => none
  | (k, b) :: rest, a => if k = a then some b else Memory.read rest a

/-- Put a byte at an offset, keeping the canonical form. -/
def Memory.write : Memory → Nat → Byte → Memory
  | [], a, v => [(a, v)]
  | (k, b) :: rest, a, v =>
    if a < k then (a, v) :: (k, b) :: rest
    else if a = k then (a, v) :: rest
    else (k, b) :: Memory.write rest a v

/-- Put bytes at consecutive offsets. -/
def Memory.writeBytes : Memory → Nat → List Byte → Memory
  | m, _, [] => m
  | m, a, b :: rest => Memory.writeBytes (Memory.write m a b) (a + 1) rest

/-- The cells of a byte sequence that stands at offsets `a`, `a + 1`, … -/
def Memory.ofBytes : Nat → List Byte → Memory
  | _, [] => []
  | a, b :: rest => (a, b) :: Memory.ofBytes (a + 1) rest

/-- `MemRead(a, 1)`: the byte at an offset of the stream, defined only below N (00_scope.md R13, 20_memory.md R41). -/
def State.memRead (s : State) (a : Nat) : Option Byte :=
  if a < s.n then Memory.read s.body a else none

/-- The bytes at offsets `a .. a+k-1`, or `none` where one of them does not exist. -/
def State.slice (s : State) (a : Nat) : Nat → Option (List Byte)
  | 0 => some []
  | k + 1 =>
    match s.memRead a with
    | none => none
    | some b => (State.slice s (a + 1) k).map (fun rest => b :: rest)

/-- The readable bytes from offset `a`, at most `k` of them, up to the first that does not exist. -/
def State.window (s : State) (a : Nat) : Nat → List Byte
  | 0 => []
  | k + 1 =>
    match s.memRead a with
    | none => []
    | some b => b :: State.window s (a + 1) k

/-- The bytes the decoder may look at: those from `CURSOR` to the stream end, at most as many as the longest
instruction has. The decoder takes its instruction from the front of them (10_state.md R23). Reads have no side effect
(20_memory.md R42), so a byte looked at and not used is not observable: log 14. -/
def State.fetchBytes (s : State) : List Byte := s.window s.cursor maxInstrLength

/-! ### The three outcomes of a decode step (10_state.md R29-R31) -/

/-- `raise Fault(k, o, b, a)`: taking a fault writes STATUS and the four fault registers and nothing else
(10_state.md R30, 60_exceptions.md R117). There is no return from a fault (R125): only `RESET` leaves it. -/
def State.takeFault (k : FaultCode) (o : Nat) (b : Byte) (a : Nat) (s : State) : State :=
  { s with status := .faulted, faultCode := k, faultOffset := o, faultByte := b, faultAvail := a }

/-- `refuse(reason, o)`: a refusal writes STATUS and REFUSE_REASON and nothing else (10_state.md R31). -/
def State.takeRefusal (r : RefuseReason) (s : State) : State :=
  { s with status := .refused, refuseReason := r }

/-- `Ok(rec)`: append the record, advance the cursor by its length, halt at the stream end (10_state.md R29). -/
def State.emit (rec : Record) (s : State) : State :=
  { s with
    out := s.out ++ [rec]
    cursor := s.cursor + rec.length
    status := if s.cursor + rec.length = s.n then .halted else .ready }

/-- A fault of the instruction at `CURSOR`: its offset, its first byte and the bytes available from it
(60_exceptions.md R118, R119). -/
def State.faultAtCursor (k : FaultCode) (s : State) : Outcome :=
  match s.memRead s.cursor with
  | none => .fault (.readOutsideStream s.cursor)
  | some b => .next (s.takeFault k s.cursor b (s.n - s.cursor))

/-- Emit the record of a whole instruction at `CURSOR`, after the bound check of its length; `raw` is the stream's own
bytes (30_encoding.md R84, R86). -/
def State.emitDecoded (i : Instr) (s : State) : Outcome :=
  if s.n < s.cursor + i.length then s.faultAtCursor .truncatedInstruction
  else
    match s.slice s.cursor (i.length) with
    | none => .fault (.readOutsideStream s.cursor)
    | some raw =>
      .next (s.emit
        { offset := s.cursor
          length := i.length
          raw := raw
          mnemonic := .mov
          operands := i.operands })

/-- The refusal checks of C6 and C7, in their order: the reg field, then the displacement rule
(42_mov_imm_rm.md R111, R112; 60_exceptions.md R123). -/
def immRmRefusal (p : Params) (reg : RegCode) (mod : ModField) (rm : RegCode) : Option RefuseReason :=
  if p.regPolicy = .refuse ∧ reg ≠ 0 then some .regField
  else if p.dispRule = .refuseUndecided ∧ ¬ (mod = 0 ∧ rm = 6) then some .dispUndecided
  else none

/-- The refusal checks of C6 and C7, then the record: the checks come before the length bound
(60_exceptions.md R123). -/
def State.emitUnlessRefused (regField : RegCode) (rm : RmOperand) (i : Instr) (s : State) : Outcome :=
  match immRmRefusal s.params regField rm.modField rm.rmField with
  | some r => .next (s.takeRefusal r)
  | none => s.emitDecoded i

/-- TRUNCATED_INSTRUCTION, where the stream really ends before the instruction does (60_exceptions.md R119). Where the
bytes looked at end before N, a cell below N is missing: no state that meets `Inv` is such. -/
def State.truncatedAtCursor (s : State) : Outcome :=
  if s.cursor + s.fetchBytes.length < s.n then .fault (.readOutsideStream (s.cursor + s.fetchBytes.length))
  else s.faultAtCursor .truncatedInstruction

/-- What a step does where the bytes at `CURSOR` are no complete instruction (60_exceptions.md R118, R119, R123). A
truncated C6 or C7 whose ModRM byte was read is refused before it is found truncated. -/
def State.decodeFailed (e : DecodeError) (s : State) : Outcome :=
  match e with
  | .noByte => .fault (.readOutsideStream s.cursor)
  | .unassigned => s.faultAtCursor .unassignedOpcode
  | .truncated none => s.truncatedAtCursor
  | .truncated (some m) =>
    match immRmRefusal s.params (regOf m) (modOf m) (rmOf m) with
    | some r => .next (s.takeRefusal r)
    | none => s.truncatedAtCursor

/-! ### RESET (70_reset_and_hazards.md R136-R140) -/

/-- The state `RESET(body, START)` leaves under the given parameters; `START` defaults to 0 (00_scope.md R8). `START > N` is the fault BAD_START_OFFSET, which
leaves `CURSOR = N` (70_reset_and_hazards.md R137-R139). That N is at most 2^31 - 1 is for the host to keep
(00_scope.md R7): DESIGN CHOICE, safe, log 12. -/
def State.afterReset (p : Params) (body : List Byte) (start : Nat := defaultStart) : State :=
  let fresh : State :=
    { params := p
      body := Memory.ofBytes 0 body
      n := body.length
      cursor := start
      status := if start < body.length then .ready else .halted
      faultCode := .none
      faultOffset := 0
      faultByte := 0x00
      faultAvail := 0
      refuseReason := .none
      out := [] }
  if body.length < start then
    State.takeFault .badStartOffset start 0x00 0 { fresh with cursor := body.length }
  else fresh

end Sys2Proof.Machine
end

