-- ==== Sys2Proof/Machine/MovImmReg.lean ====
section
/-! DEFINITION. B0-B7 and B8-BF: immediate to register (41_mov_imm_reg.md R106-R109). No flag is written
(10_state.md R26). -/

namespace Sys2Proof.Machine

/-- B0-B7: MOV r8, imm8 (41_mov_imm_reg.md R107). -/
def execMovR8Imm8 (reg : RegCode) (imm : Byte) (s : State) : Outcome :=
  s.emitDecoded (.movR8Imm8 reg imm)

/-- B8-BF: MOV r16, imm16 (41_mov_imm_reg.md R108). -/
def execMovR16Imm16 (reg : RegCode) (imm : Word) (s : State) : Outcome :=
  s.emitDecoded (.movR16Imm16 reg imm)

end Sys2Proof.Machine
end

