-- ==== Sys2Proof/Machine/MovImmRm.lean ====
section
/-! DEFINITION. C6 and C7: immediate to register/memory, with the refusals of the non-default parameters
(42_mov_imm_rm.md R110-R115). No flag is written (10_state.md R26). -/

namespace Sys2Proof.Machine

/-- C6: MOV r/m8, imm8 (42_mov_imm_rm.md R113). -/
def execMovRm8Imm8 (regField : RegCode) (rm : RmOperand) (imm : Byte) (s : State) : Outcome :=
  s.emitUnlessRefused regField rm (.movRm8Imm8 regField rm imm)

/-- C7: MOV r/m16, imm16 (42_mov_imm_rm.md R114). -/
def execMovRm16Imm16 (regField : RegCode) (rm : RmOperand) (imm : Word) (s : State) : Outcome :=
  s.emitUnlessRefused regField rm (.movRm16Imm16 regField rm imm)

end Sys2Proof.Machine
end

