-- ==== Sys2Proof/Machine/MovRmReg.lean ====
section
/-! DEFINITION. 88, 89, 8A, 8B: register/memory to and from register (40_mov_rm_reg.md R100-R105). No flag is written
(10_state.md R26). -/

namespace Sys2Proof.Machine

/-- 88: MOV r/m8, r8 (40_mov_rm_reg.md R101). -/
def execMovRm8R8 (reg : RegCode) (rm : RmOperand) (s : State) : Outcome :=
  s.emitDecoded (.movRm8R8 reg rm)

/-- 89: MOV r/m16, r16 (40_mov_rm_reg.md R102). -/
def execMovRm16R16 (reg : RegCode) (rm : RmOperand) (s : State) : Outcome :=
  s.emitDecoded (.movRm16R16 reg rm)

/-- 8A: MOV r8, r/m8 (40_mov_rm_reg.md R103). -/
def execMovR8Rm8 (reg : RegCode) (rm : RmOperand) (s : State) : Outcome :=
  s.emitDecoded (.movR8Rm8 reg rm)

/-- 8B: MOV r16, r/m16 (40_mov_rm_reg.md R104). -/
def execMovR16Rm16 (reg : RegCode) (rm : RmOperand) (s : State) : Outcome :=
  s.emitDecoded (.movR16Rm16 reg rm)

end Sys2Proof.Machine
end

