-- ==== Sys2Proof/Machine/Step.lean ====
section
/-! DEFINITION. The `STEP` command (10_state.md R28, R32), and where an instruction is put for it to run. -/

namespace Sys2Proof.Machine

/-- `STEP`: in READY, decode at `CURSOR` and apply the outcome; in any other status, no effect
(10_state.md R28, R32). -/
def step (s : State) : Host.Outcome State Fault Refusal :=
  match s.status with
  | .ready =>
    match decode s.fetchBytes with
    | .ok (i, _) => exec i s
    | .error e => s.decodeFailed e
  | .halted => .next s
  | .faulted => .next s
  | .refused => .next s

/-- `s` with the six bytes of a table word standing at `CURSOR`, the stream long enough to hold them, and READY. This
stands for the host's `RESET(body, START)` with those bytes, which is how a program comes to run: log 3, log 17. -/
def State.withFetchWord (s : State) (nbits w : Nat) : State :=
  { s with
    body := Memory.writeBytes s.body s.cursor (tableBytes nbits w)
    n := max s.n (s.cursor + maxInstrLength)
    status := .ready }

end Sys2Proof.Machine
end

