-- ==== Sys2Proof/Machine/Flags.lean ====
section
/-! DEFINITION. The decoder has no flags and no condition codes, and no instruction writes one (10_state.md R26). What
it has in their place are three enumerated status registers; this file gives the numeric codes the spec numbers them
by. -/

namespace Sys2Proof.Machine

/-- The numeric code of a `STATUS` value (10_state.md R22). -/
def Status.code : Status → Nat
  | .ready => 0
  | .halted => 1
  | .faulted => 2
  | .refused => 3

/-- The numeric code of a `FAULT_CODE` value (60_exceptions.md R116). -/
def FaultCode.code : FaultCode → Nat
  | .none => 0
  | .unassignedOpcode => 1
  | .truncatedInstruction => 2
  | .badStartOffset => 3

/-- The numeric code of a `REFUSE_REASON` value (60_exceptions.md R126). -/
def RefuseReason.code : RefuseReason → Nat
  | .none => 0
  | .regField => 1
  | .dispUndecided => 2

/-- A run has ended when `STATUS` is not `READY` (10_state.md R36). -/
def Status.ended : Status → Bool
  | .ready => false
  | .halted => true
  | .faulted => true
  | .refused => true

/-- A run ended well only when `STATUS` is `HALTED` (10_state.md R36). -/
def Status.endedWell : Status → Bool
  | .ready => false
  | .halted => true
  | .faulted => false
  | .refused => false

end Sys2Proof.Machine
end

