-- ==== Sys2Proof/Machine/HostCommands.lean ====
section
/-! DEFINITION. The commands of the host (10_state.md R16) and runs of the decoder. -/

namespace Sys2Proof.Machine

/-- The commands the decoder accepts (10_state.md R16). Abandoning a run is no command (60_exceptions.md R128). -/
inductive Command where
  /-- `RESET(body, START)`; `RESET(body)` begins at the default START (00_scope.md R8, 20_memory.md R45). -/
  | reset (body : List Byte) (start : Nat := defaultStart)
  | step
deriving DecidableEq, Repr

/-- The effect of one command: `RESET` in any state replaces every register and keeps the parameters, which no command
writes (70_reset_and_hazards.md R140, 10_state.md R18). -/
def State.command (s : State) : Command → Outcome
  | .reset body start => .next (State.afterReset s.params body start)
  | .step => step s

/-- `k` `STEP`s in a row, ending at the first stop of the model. -/
def steps : Nat → State → Outcome
  | 0, s => .next s
  | k + 1, s =>
    match step s with
    | .next t => steps k t
    | .fault f => .fault f
    | .refused r => .refused r

end Sys2Proof.Machine
end

