-- ==== Sys2Proof/Machine/Loader.lean ====
section
/-! DEFINITION. The loader interface: what the decoder requires of the surrounding software that reads the file
(70_reset_and_hazards.md R141-R147). The loader is outside the block (00_scope.md R5(a)); this file gives only its
interface, as a function from a file's bytes to the arguments of `RESET`. -/

namespace Sys2Proof.Machine

/-- The header, field by field (70_reset_and_hazards.md R142). `magic` is checked and not kept. -/
structure Header where
  flags : Byte
  cpu : Byte
  headerLen : Byte
  unused : Byte
  version : Word
  textSize : BitVec 32
  dataSize : BitVec 32
  bssSize : BitVec 32
  entry : BitVec 32
  totalSize : BitVec 32
  symSize : BitVec 32
  relocTextSize : BitVec 32
  relocDataSize : BitVec 32
  textBase : BitVec 32
  dataBase : BitVec 32
deriving DecidableEq, Repr

/-- Why a file is not loaded (70_reset_and_hazards.md R141, R145). The reasons' names are the model's: log 11. -/
inductive LoadError where
  /-- The first two bytes are not 01 03. -/
  | badMagic
  /-- Fewer bytes are available than the header or a segment declares. -/
  | shortRead
  /-- `headerLen` is below 32 (D26). -/
  | badHeaderLen
  /-- `textSize` or `dataSize` is negative (D16). -/
  | negativeSize
deriving DecidableEq, Repr

/-- A completely loaded file. -/
structure Image where
  header : Header
  text : List Byte
  data : List Byte
deriving DecidableEq, Repr

/-- The byte at a file offset, or a short read. -/
def fileByte (file : List Byte) (a : Nat) : Except LoadError Byte :=
  match file[a]? with
  | some b => .ok b
  | none => .error .shortRead

/-- Two file bytes, little-endian (70_reset_and_hazards.md R142). -/
def fileWord (file : List Byte) (a : Nat) : Except LoadError Word := do
  let lo ← fileByte file a
  let hi ← fileByte file (a + 1)
  pure (le16 lo hi)

/-- Four file bytes, little-endian (70_reset_and_hazards.md R142). -/
def fileDword (file : List Byte) (a : Nat) : Except LoadError (BitVec 32) := do
  let lo ← fileWord file a
  let hi ← fileWord file (a + 2)
  pure (hi ++ lo : BitVec (16 + 16))

/-- The magic number `01 03` (70_reset_and_hazards.md R141). -/
def checkMagic (file : List Byte) : Except LoadError Unit := do
  let m0 ← fileByte file 0
  let m1 ← fileByte file 1
  if m0 = 0x01 ∧ m1 = 0x03 then pure () else .error .badMagic

/-- A relocation field: read as it stands for `headerLen > 0x20`, forced to zero otherwise
(70_reset_and_hazards.md R143). A header of 33 to 47 bytes whose file ends before the field is a short read: log 10. -/
def relocField (file : List Byte) (headerLen : Byte) (a : Nat) : Except LoadError (BitVec 32) :=
  if headerLen.toNat ≤ 0x20 then .ok 0 else fileDword file a

/-- The header of a file whose magic was checked (70_reset_and_hazards.md R142, R143). -/
def readHeader (file : List Byte) : Except LoadError Header := do
  let flags ← fileByte file 2
  let cpu ← fileByte file 3
  let headerLen ← fileByte file 4
  let unused ← fileByte file 5
  let version ← fileWord file 6
  let textSize ← fileDword file 8
  let dataSize ← fileDword file 12
  let bssSize ← fileDword file 16
  let entry ← fileDword file 20
  let totalSize ← fileDword file 24
  let symSize ← fileDword file 28
  let relocTextSize ← relocField file headerLen 32
  let relocDataSize ← relocField file headerLen 36
  let textBase ← relocField file headerLen 40
  let dataBase ← relocField file headerLen 44
  pure { flags, cpu, headerLen, unused, version, textSize, dataSize, bssSize, entry, totalSize, symSize,
         relocTextSize, relocDataSize, textBase, dataBase }

/-- Exactly `k` bytes of the file from offset `a`, or a short read (70_reset_and_hazards.md R144, R145). -/
def fileSegment (file : List Byte) (a k : Nat) : Except LoadError (List Byte) :=
  if a + k ≤ file.length then .ok ((file.drop a).take k) else .error .shortRead

/-- The sizes and the header length are ones the loader goes on with (70_reset_and_hazards.md R145; D16, D26). -/
def checkSizes (h : Header) : Except LoadError Unit :=
  if h.headerLen.toNat < 32 then .error .badHeaderLen
  else if h.textSize.toInt < 0 ∨ h.dataSize.toInt < 0 then .error .negativeSize
  else .ok ()

/-- Loading a file: the magic, the header, then the text and data segments completely
(70_reset_and_hazards.md R147, steps 2 to 4). -/
def load (file : List Byte) : Except LoadError Image := do
  checkMagic file
  let h ← readHeader file
  checkSizes h
  let text ← fileSegment file h.headerLen.toNat h.textSize.toNat
  let data ← fileSegment file (h.headerLen.toNat + h.textSize.toNat) h.dataSize.toNat
  pure { header := h, text := text, data := data }

/-- The boot order: load the file and issue `RESET(text segment, START)`; a load failure issues no `RESET`
(70_reset_and_hazards.md R145-R147). START is 0 where the host gives none, and the header's `entry` is not
consulted (R146, 20_memory.md R45). -/
def boot (p : Params) (file : List Byte) (start : Nat := defaultStart) : Except LoadError State := do
  let image ← load file
  pure (State.afterReset p image.text start)

end Sys2Proof.Machine
end

