-- ==== Sys2Proof/Machine/Text.lean ====
section
/-! DEFINITION. The text of a record's instruction part, of its raw bytes and of its offset (30_encoding.md R65-R68,
R91-R99). OFFSET_DIGITS and LINE_FORMAT are open parameters of the formatter, which the spec has a model take as
arguments (D11, I10); no layout of a line is fixed here (00_scope.md R5(f), log 15). The conventions the source leaves
open (D6-D9) are the spec's own: log 9. -/

namespace Sys2Proof.Machine

/-- A text, as its characters. -/
abbrev Text := List Char

/-- One lowercase hexadecimal digit. -/
def hexDigit (v : Nat) : Char :=
  if v < 10 then Char.ofNat (48 + v) else Char.ofNat (87 + v)

/-- `hex2(v)`: exactly 2 lowercase hexadecimal digits (30_encoding.md, section 8). -/
def hex2 (v : Nat) : Text := [hexDigit (v / 16 % 16), hexDigit (v % 16)]

/-- `hex4(v)`: exactly 4 lowercase hexadecimal digits (30_encoding.md, section 8). -/
def hex4 (v : Nat) : Text := hex2 (v / 256) ++ hex2 (v % 256)

/-- The 8-bit register table (30_encoding.md R65). -/
def regName8 (code : RegCode) : Text :=
  match code.toNat with
  | 0 => "al".toList
  | 1 => "cl".toList
  | 2 => "dl".toList
  | 3 => "bl".toList
  | 4 => "ah".toList
  | 5 => "ch".toList
  | 6 => "dh".toList
  | _ => "bh".toList

/-- The 16-bit register table (30_encoding.md R66). -/
def regName16 (code : RegCode) : Text :=
  match code.toNat with
  | 0 => "ax".toList
  | 1 => "cx".toList
  | 2 => "dx".toList
  | 3 => "bx".toList
  | 4 => "sp".toList
  | 5 => "bp".toList
  | 6 => "si".toList
  | _ => "di".toList

/-- `regName(code, w)` (30_encoding.md R67). -/
def regName (code : RegCode) : Width → Text
  | .w8 => regName8 code
  | .w16 => regName16 code

/-- The text row of the base table; a direct address has no base text of its own (30_encoding.md R68). -/
def eaBaseText : EaBase → Text
  | .bxSi => "bx+si".toList
  | .bxDi => "bx+di".toList
  | .bpSi => "bp+si".toList
  | .bpDi => "bp+di".toList
  | .si => "si".toList
  | .di => "di".toList
  | .bp => "bp".toList
  | .bx => "bx".toList
  | .direct => []

/-- `baseText(base, disp)`: the base's text, or the four digits of a direct address (30_encoding.md R93, R96). -/
def baseText (base : EaBase) : Disp → Text
  | .addr a => hex4 a.toNat
  | .noDisp => eaBaseText base
  | .d8 _ => eaBaseText base
  | .d16 _ => eaBaseText base

/-- The sign and the magnitude of a displacement (30_encoding.md R94). -/
def signedText (hex : Nat → Text) (v : Int) : Text :=
  if 0 ≤ v then '+' :: hex v.natAbs else '-' :: hex v.natAbs

/-- `dispText(disp)`; zero is spelled, never suppressed (30_encoding.md R94, R95). -/
def dispText : Disp → Text
  | .noDisp => []
  | .d8 v => signedText hex2 v.toInt
  | .d16 v => signedText hex4 v.toInt
  | .addr _ => []

/-- `kw(size)` (30_encoding.md R98). -/
def sizeText : SizeKw → Text
  | .none => []
  | .byte => "byte ".toList
  | .word => "word ".toList

/-- `opText` (30_encoding.md R92, R93, R96, R97). -/
def Operand.text : Operand → Text
  | .reg w code => regName code w
  | .mem base disp size => sizeText size ++ '[' :: (baseText base disp ++ dispText disp ++ [']'])
  | .imm8 v => hex2 v.toNat
  | .imm16 v => hex4 v.toNat

/-- The mnemonic in lowercase (30_encoding.md R91). -/
def Mnemonic.text : Mnemonic → Text
  | .mov => "mov".toList

/-- Texts joined by a comma with no space (30_encoding.md R91). -/
def joinComma : List Text → Text
  | [] => []
  | [t] => t
  | t :: u :: rest => t ++ ',' :: joinComma (u :: rest)

/-- `text(rec)` (30_encoding.md R91). -/
def Record.text (rec : Record) : Text :=
  Mnemonic.text rec.mnemonic ++ ' ' :: joinComma (rec.operands.map Operand.text)

/-- The raw bytes in stream order, two digits each, with no separator (30_encoding.md R99). -/
def rawText : List Byte → Text
  | [] => []
  | b :: rest => hex2 b.toNat ++ rawText rest

/-- `v` as exactly `digits` lowercase hexadecimal digits, zero-padded: `hex2` and `hex4` for any number of digits. -/
def hexText : Nat → Nat → Text
  | 0, _ => []
  | digits + 1, v => hexText digits (v / 16) ++ [hexDigit (v % 16)]

/-- The offset as a fixed-width hex address of OFFSET_DIGITS digits (30_encoding.md R99). That the digits are lowercase
is a DESIGN CHOICE, unsafe for this text only; what stands for an offset that does not fit is a free value, safe:
log 15. -/
def offsetText (digits offset : Nat) : Text :=
  hexText digits (if offset < 16 ^ digits then offset else wideOffset digits offset)

/-- A record's line: its offset, raw bytes and instruction text, laid out as LINE_FORMAT has it (30_encoding.md R99; both
arguments are open parameters, D11). -/
def Record.line (offsetDigits : Nat) (lineFormat : Text → Text → Text → Text) (rec : Record) : Text :=
  lineFormat (offsetText offsetDigits rec.offset) (rawText rec.raw) (Record.text rec)

end Sys2Proof.Machine
end

