-- ==== Sys2Proof/Machine/DecodeAt.lean ====
section
/-! DEFINITION. The spec's `decodeAt` and the three outcomes of a step, transcribed line by line from
30_encoding.md R84 over the stream itself. It shares the dispatch table and `dispLen` with the decoder and nothing
else: `step`, which decodes a list of bytes into an instruction and runs it, is to agree with it. -/

namespace Sys2Proof.Machine

/-- The three outcomes of a decode step (00_scope.md R14). -/
inductive DecodeOutcome where
  | ok (rec : Record)
  | fault (k : FaultCode) (offset : Nat) (byte : Byte) (avail : Nat)
  | refuse (reason : RefuseReason) (offset : Nat)
deriving DecidableEq, Repr

/-- `le16(MemRead(a, 1), MemRead(a+1, 1))` (30_encoding.md R58, R84). -/
def State.wordAt (s : State) (a : Nat) : Option Word := do
  let lo ← s.memRead a
  let hi ← s.memRead (a + 1)
  pure (le16 lo hi)

/-- The immediate operand of the given width at an offset (30_encoding.md R62, R63). -/
def State.immAt (s : State) (w : Width) (a : Nat) : Option Operand :=
  match w with
  | .w8 => (s.memRead a).map Operand.imm8
  | .w16 => (s.wordAt a).map Operand.imm16

/-- `resolveRM(p, mod, rm, w)` on the stream, with the size keyword its memory operands are to carry
(30_encoding.md R69-R75, R84). -/
def State.resolveRM (s : State) (p : Nat) (mod : ModField) (rm : RegCode) (w : Width) (size : SizeKw) :
    Option Operand :=
  if mod = 3 then some (.reg w rm)
  else if mod = 0 ∧ rm = 6 then (s.wordAt p).map (fun a => .mem .direct (.addr a) size)
  else if mod = 0 then some (.mem (eaBase mod rm) .noDisp size)
  else if mod = 1 then (s.memRead p).map (fun d => .mem (eaBase mod rm) (.d8 (d.signExtend 16)) size)
  else (s.wordAt p).map (fun d => .mem (eaBase mod rm) (.d16 d) size)

/-- `Ok({offset: c, length: len, raw: body[c .. c+len-1], mnemonic: MOV, operands: ops})`. -/
def State.okRecord (s : State) (c len : Nat) (ops : List Operand) : Option DecodeOutcome := do
  let raw ← s.slice c len
  pure (.ok { offset := c, length := len, raw := raw, mnemonic := .mov, operands := ops })

/-- The end of `decodeAt` for class `RM_REG`, once the whole instruction is known to lie in the stream. -/
def State.decodeRmRegAt (s : State) (desc : Descriptor) (c len : Nat) (m : Byte) : Option DecodeOutcome := do
  let rmop ← s.resolveRM (c + 2) (modOf m) (rmOf m) desc.w .none
  let regop := Operand.reg desc.w (regOf m)
  s.okRecord c len (if desc.d then [regop, rmop] else [rmop, regop])

/-- The end of `decodeAt` for class `IMM_RM`, once the whole instruction is known to lie in the stream. -/
def State.decodeImmRmAt (s : State) (desc : Descriptor) (c len : Nat) (m : Byte) : Option DecodeOutcome := do
  let size := match desc.w with
    | .w8 => SizeKw.byte
    | .w16 => SizeKw.word
  let rmop ← s.resolveRM (c + 2) (modOf m) (rmOf m) desc.w size
  let imm ← s.immAt desc.w (c + 2 + dispLen (modOf m) (rmOf m))
  s.okRecord c len [rmop, imm]

/-- `decodeAt(c)` (30_encoding.md R84). `none` is a `MemRead` at an offset where it is not defined, which R85 says
never happens for `c < N`. -/
def State.decodeAt (s : State) (c : Nat) : Option DecodeOutcome := do
  let b0 ← s.memRead c
  let truncated := DecodeOutcome.fault .truncatedInstruction c b0 (s.n - c)
  match dispatch b0 with
  | none => pure (.fault .unassignedOpcode c b0 (s.n - c))
  | some desc =>
    match desc.cls with
    | .immReg =>
      let len := 1 + immLen desc.w
      if c + len > s.n then pure truncated
      else
        let imm ← s.immAt desc.w (c + 1)
        s.okRecord c len [.reg desc.w (b0.extractLsb' 0 3), imm]
    | .rmReg =>
      if c + 2 > s.n then pure truncated
      else
        let m ← s.memRead (c + 1)
        let len := 2 + dispLen (modOf m) (rmOf m)
        if c + len > s.n then pure truncated else s.decodeRmRegAt desc c len m
    | .immRm =>
      if c + 2 > s.n then pure truncated
      else
        let m ← s.memRead (c + 1)
        if s.params.regPolicy = .refuse ∧ regOf m ≠ 0 then pure (.refuse .regField c)
        else if s.params.dispRule = .refuseUndecided ∧ ¬ (modOf m = 0 ∧ rmOf m = 6) then
          pure (.refuse .dispUndecided c)
        else
          let len := 2 + dispLen (modOf m) (rmOf m) + immLen desc.w
          if c + len > s.n then pure truncated else s.decodeImmRmAt desc c len m

/-- Apply an outcome of `decodeAt` to the state (10_state.md R28-R31). -/
def State.applyOutcome (s : State) : DecodeOutcome → State
  | .ok rec => s.emit rec
  | .fault k o b a => s.takeFault k o b a
  | .refuse r _ => s.takeRefusal r

end Sys2Proof.Machine
end

