-- ==== Sys2Proof/Safety.lean ====
section
/-! DEFINITION. What a sound state and a sound run of the decoder are, in the terms the statements use. -/

namespace Sys2Proof.Machine

/-- The stream is complete: it lists each offset below N once, in order (20_memory.md R37). -/
abbrev State.StreamComplete (s : State) : Prop := s.body.map Prod.fst = List.range s.n

/-- A record is the decoding of its own raw bytes, which are the stream's at its offset (10_state.md R20). -/
structure RecordOk (s : State) (rec : Record) : Prop where
  raw_is_slice : s.slice rec.offset rec.length = some rec.raw
  decodes : ∃ i : Instr, i.wf = true ∧ decode rec.raw = .ok (i, []) ∧ rec.length = i.length ∧
    rec.operands = i.operands

/-- What holds of the fault registers while no fault is held, and of a fault `STEP` took: it names the cursor, the
byte there and the bytes from it to the stream end (10_state.md R25, R30; 60_exceptions.md R118, R119). -/
def State.FaultRegistersOk (s : State) : Prop :=
  match s.faultCode with
  | .none => s.faultOffset = 0 ∧ s.faultByte = 0x00 ∧ s.faultAvail = 0
  | .unassignedOpcode =>
    s.faultOffset = s.cursor ∧ s.memRead s.cursor = some s.faultByte ∧ s.faultAvail = s.n - s.cursor ∧
      dispatch s.faultByte = none
  | .truncatedInstruction =>
    s.faultOffset = s.cursor ∧ s.memRead s.cursor = some s.faultByte ∧ s.faultAvail = s.n - s.cursor ∧
      1 ≤ s.faultAvail ∧ s.faultAvail ≤ 5 ∧ dispatch s.faultByte ≠ none
  | .badStartOffset =>
    s.n < s.faultOffset ∧ s.faultByte = 0x00 ∧ s.faultAvail = 0 ∧ s.cursor = s.n ∧ s.out = []

/-- The invariant of the decoder: what `RESET` establishes and every step keeps. -/
structure State.Inv (s : State) : Prop where
  /-- 20_memory.md R37. -/
  stream_complete : s.StreamComplete
  /-- 00_scope.md R7. -/
  length_bounded : s.n ≤ 2 ^ 31 - 1
  /-- 10_state.md R24. -/
  cursor_in_range : s.cursor ≤ s.n
  /-- 10_state.md R22. -/
  ready_inside : s.status = .ready → s.cursor < s.n
  /-- 10_state.md R22. -/
  halted_at_end : s.status = .halted → s.cursor = s.n
  /-- 60_exceptions.md R124: a fault is told from the stream end by its code. -/
  faulted_iff : s.status = .faulted ↔ s.faultCode ≠ .none
  /-- 60_exceptions.md R126. -/
  refused_iff : s.status = .refused ↔ s.refuseReason ≠ .none
  fault_registers : s.FaultRegistersOk
  records : ∀ rec ∈ s.out, RecordOk s rec

/-- The parameters admit a C6 or C7 with this reg field and r/m operand (42_mov_imm_rm.md R111, R112). -/
def ImmRmAdmitted (p : Params) (regField : RegCode) (rm : RmOperand) : Prop :=
  (p.regPolicy = .ignore ∨ regField = 0) ∧ (p.dispRule = .general ∨ (rm.modField = 0 ∧ rm.rmField = 6))

/-- The records stand one after another from offset `start`, and the last ends at `stop`: each offset is `start` plus
the lengths of the records before it (10_state.md R33). -/
def OutFrom (start : Nat) : List Record → Nat → Prop
  | [], stop => stop = start
  | rec :: rest, stop => rec.offset = start ∧ OutFrom (start + rec.length) rest stop

/-- The sum of the records' lengths. -/
def totalLength : List Record → Nat
  | [] => 0
  | rec :: rest => rec.length + totalLength rest

/-- An operand a record can hold (10_state.md R21): a direct address stands with base `DIRECT` alone, `[bp]` has a
displacement, and an 8-bit displacement is a sign-extended byte. -/
def Operand.wf : Operand → Bool
  | .reg _ _ => true
  | .mem base disp _ =>
    match disp with
    | .addr _ => base == .direct
    | .noDisp => base != .direct && base != .bp
    | .d8 v => base != .direct && v == sext16 (v.setWidth 8)
    | .d16 _ => base != .direct
  | .imm8 _ => true
  | .imm16 _ => true

end Sys2Proof.Machine
end

