-- ==== Sys2Proof/Certificates/Slice0/Obligations.lean ====
section
/-! DEFINITION. The statements for the provers. Rules are cited by file and number; where a clause rests on a decision or
an inference the spec marks as its own, the docstring says so. -/

open Sys2Proof Sys2Proof.Machine

/-! ### Fields, tables and byte order -/

/-- 30_encoding.md R55: the ModRM fields are bits 7-6, 5-3 and 2-0, for every byte. -/
def Obligations.ModRMFieldExtraction : Prop :=
  ∀ m : Byte, (modOf m).toNat = m.toNat / 64 ∧ (regOf m).toNat = m.toNat / 8 % 8 ∧ (rmOf m).toNat = m.toNat % 8

/-- 30_encoding.md R57: the sign extension of a byte, as a signed value and as a 16-bit pattern. -/
def Obligations.SignExtendByteToWord : Prop :=
  ∀ v : Byte,
    (sext16 v).toInt = (v.toNat : Int) - 256 * (v.toNat / 128 : Nat) ∧
    (sext16 v).toNat = if v.toNat / 128 = 1 then 0xFF00 + v.toNat else v.toNat

/-- 30_encoding.md R58: the byte at the lower offset is the low-order byte. -/
def Obligations.LittleEndianComposition : Prop :=
  ∀ lo hi : Byte, (le16 lo hi).toNat = hi.toNat * 256 + lo.toNat

/-- 30_encoding.md R65, R66, R67: the two register tables, and all sixteen names distinct. -/
def Obligations.RegisterNameTables : Prop :=
  (List.range 8).map (fun c => regName (BitVec.ofNat 3 c) .w8) =
    ["al".toList, "cl".toList, "dl".toList, "bl".toList, "ah".toList, "ch".toList, "dh".toList, "bh".toList] ∧
  (List.range 8).map (fun c => regName (BitVec.ofNat 3 c) .w16) =
    ["ax".toList, "cx".toList, "dx".toList, "bx".toList, "sp".toList, "bp".toList, "si".toList, "di".toList] ∧
  ∀ (c c' : RegCode) (w w' : Width), regName c w = regName c' w' → c = c' ∧ w = w'

/-- 30_encoding.md R68: the base table under mod in 0, 1, 2, with its text row. -/
def Obligations.EffectiveAddressBaseTable : Prop :=
  (∀ mod : ModField, mod ≠ 3 →
    [eaBase mod 0, eaBase mod 1, eaBase mod 2, eaBase mod 3, eaBase mod 4, eaBase mod 5, eaBase mod 7] =
      [.bxSi, .bxDi, .bpSi, .bpDi, .si, .di, .bx]) ∧
  eaBase 0 6 = .direct ∧ eaBase 1 6 = .bp ∧ eaBase 2 6 = .bp ∧
  [EaBase.bxSi, .bxDi, .bpSi, .bpDi, .si, .di, .bp, .bx].map eaBaseText =
    ["bx+si".toList, "bx+di".toList, "bp+si".toList, "bp+di".toList, "si".toList, "di".toList, "bp".toList,
      "bx".toList]

/-- 30_encoding.md R69, R70, R71, R73, R74: the five forms of the resolver, with the operand each gives and the bytes
it leaves; a register's name is `regName`'s. -/
def Obligations.ResolverForms : Prop :=
  ∀ (w : Width) (size : SizeKw) (rm : RegCode) (lo hi : Byte) (bs : List Byte),
    (∃ o, resolveRm 3 rm bs = some (o, bs) ∧ o.operand w size = .reg w rm ∧
      Operand.text (o.operand w size) = regName rm w) ∧
    (rm ≠ 6 → ∃ o, resolveRm 0 rm bs = some (o, bs) ∧ o.operand w size = .mem (eaBase 0 rm) .noDisp size) ∧
    (∃ o, resolveRm 0 6 (lo :: hi :: bs) = some (o, bs) ∧
      o.operand w size = .mem .direct (.addr (le16 lo hi)) size) ∧
    (∃ o, resolveRm 1 rm (lo :: bs) = some (o, bs) ∧ o.operand w size = .mem (eaBase 1 rm) (.d8 (sext16 lo)) size) ∧
    (∃ o, resolveRm 2 rm (lo :: hi :: bs) = some (o, bs) ∧
      o.operand w size = .mem (eaBase 2 rm) (.d16 (le16 lo hi)) size)

/-- 30_encoding.md R72 (decision D4 for C6 and C7), R75: the resolver has no failure of its own. It gives a well-formed
operand of exactly the mod and rm asked for, and takes `dispLen` bytes, wherever that many are left. -/
def Obligations.ResolverTakesDispLenBytes : Prop :=
  ∀ (mod : ModField) (rm : RegCode) (bs : List Byte),
    (dispLen mod rm ≤ bs.length →
      ∃ o, resolveRm mod rm bs = some (o, bs.drop (dispLen mod rm)) ∧ o.wf = true ∧ o.modField = mod ∧
        o.rmField = rm) ∧
    (bs.length < dispLen mod rm → resolveRm mod rm bs = none)

/-- 30_encoding.md R80 (decisions D2, D5, D22; the byte values are general knowledge, log 5): the 22 admitted first
bytes with their descriptors, no other byte, and no byte under two rows. The d of the B0-BF, C6 and C7 descriptors is the
model's filler, which R79 gives no meaning: log 18. -/
def Obligations.DispatchTableAdmitsTwentyTwoBytes : Prop :=
  dispatch 0x88 = some ⟨.rmReg, .w8, false, true, .mov⟩ ∧
  dispatch 0x89 = some ⟨.rmReg, .w16, false, true, .mov⟩ ∧
  dispatch 0x8A = some ⟨.rmReg, .w8, true, true, .mov⟩ ∧
  dispatch 0x8B = some ⟨.rmReg, .w16, true, true, .mov⟩ ∧
  (∀ b : Byte, 0xB0 ≤ b.toNat → b.toNat ≤ 0xB7 → dispatch b = some ⟨.immReg, .w8, false, false, .mov⟩) ∧
  (∀ b : Byte, 0xB8 ≤ b.toNat → b.toNat ≤ 0xBF → dispatch b = some ⟨.immReg, .w16, false, false, .mov⟩) ∧
  dispatch 0xC6 = some ⟨.immRm, .w8, false, true, .mov⟩ ∧
  dispatch 0xC7 = some ⟨.immRm, .w16, false, true, .mov⟩ ∧
  (∀ b : Byte, b.toNat ≤ 0x87 ∨ (0x8C ≤ b.toNat ∧ b.toNat ≤ 0xAF) ∨ (0xC0 ≤ b.toNat ∧ b.toNat ≤ 0xC5) ∨
    0xC8 ≤ b.toNat → dispatch b = none) ∧
  (∀ b : Byte, (dispatchTable.filter (fun r => r.covers b)).length ≤ 1)

/-- 30_encoding.md R81 (general knowledge, a cross-check of R80): the w and d columns agree with the opcode bits. -/
def Obligations.OpcodeBitsAgreeWithDescriptors : Prop :=
  ∀ (b : Byte) (desc : Descriptor), dispatch b = some desc →
    (desc.cls = .rmReg → desc.d = b.getLsbD 1 ∧ (desc.w = .w16 ↔ b.getLsbD 0 = true)) ∧
    (desc.cls = .immReg → (desc.w = .w16 ↔ b.getLsbD 3 = true) ∧ (opcodeReg b).toNat = b.toNat % 8) ∧
    (desc.cls = .immRm → (desc.w = .w16 ↔ b.getLsbD 0 = true)) ∧
    (desc.hasModRM = true ↔ desc.cls ≠ .immReg)

/-! ### Decoding and encoding -/

/-- 95_test_vectors.md S1-S4 and sections 2.4-2.6: words written out from the encodings decode to their instructions.
The byte values 88, 8A, B4 and C7 are general knowledge: log 5. -/
def Obligations.SampleWordsDecode : Prop :=
  decode [0x89, 0xD8] = .ok (.movRm16R16 3 (.reg 0), []) ∧
  decode [0x8B, 0x46, 0x02] = .ok (.movR16Rm16 0 (.disp8 .bp 0x02), []) ∧
  decode [0x88, 0x47, 0xFF] = .ok (.movRm8R8 0 (.disp8 .bx 0xFF), []) ∧
  decode [0x8A, 0x87, 0x00, 0x01] = .ok (.movR8Rm8 0 (.disp16 .bx 0x0100), []) ∧
  decode [0xB4, 0x4C] = .ok (.movR8Imm8 4 0x4C, []) ∧
  decode [0xB8, 0x34, 0x12] = .ok (.movR16Imm16 0 0x1234, []) ∧
  decode [0xC6, 0x06, 0x05, 0x00, 0x2A] = .ok (.movRm8Imm8 0 (.direct 0x0005) 0x2A, []) ∧
  decode [0xC7, 0x38, 0x00, 0x00] = .ok (.movRm16Imm16 7 (.noDisp .bxSi) 0, [])

/-- 30_encoding.md sections 1 to 6: every well-formed instruction decodes from its own bytes, whatever follows. -/
def Obligations.DecodeOfEncode : Prop :=
  ∀ (i : Instr) (rest : List Byte), i.wf = true → decode (encode i ++ rest) = .ok (i, rest)

/-- 30_encoding.md sections 1 to 6: what decodes is well-formed, and its encoding is the very bytes taken, so that each
byte sequence has one meaning and no bit of it is dropped. -/
def Obligations.EncodeOfDecode : Prop :=
  ∀ (bs : List Byte) (i : Instr) (rest : List Byte), decode bs = .ok (i, rest) → i.wf = true ∧ bs = encode i ++ rest

/-- 30_encoding.md R82, R83 (derived there): the length of an instruction is the descriptor's, from the opcode byte and
the ModRM byte alone, and it is the number of bytes taken. -/
def Obligations.DecodedLengthFollowsDescriptor : Prop :=
  ∀ (b0 m : Byte) (bs rest : List Byte) (i : Instr) (desc : Descriptor),
    dispatch b0 = some desc → decode (b0 :: m :: bs) = .ok (i, rest) →
      i.length = desc.length (modOf m) (rmOf m) ∧ (b0 :: m :: bs).length = i.length + rest.length ∧
      2 ≤ i.length ∧ i.length ≤ 6

/-- 30_encoding.md R84, R86, R87: decoding succeeds exactly where the first byte is admitted, the ModRM byte it needs is
there, and all the bytes its length counts are there. -/
def Obligations.DecodeSucceedsIffBytesSuffice : Prop :=
  ∀ bs : List Byte,
    (∃ i rest, decode bs = .ok (i, rest)) ↔
      ∃ b0 tail desc, bs = b0 :: tail ∧ dispatch b0 = some desc ∧ (desc.hasModRM = true → tail ≠ []) ∧
        desc.length (modOf (tail.headD 0)) (rmOf (tail.headD 0)) ≤ bs.length

/-- 10_state.md R20, R21; 30_encoding.md R59-R63, R77: a well-formed instruction has two operands, each one a record can
hold. Only a memory destination of C6 and C7 carries a size: 30_encoding.md R98 (decision D9, log 9), R84,
42_mov_imm_rm.md R113, R114. -/
def Obligations.OperandsAreRecordOperands : Prop :=
  ∀ i : Instr, i.wf = true →
    ∃ dst src, i.operands = [dst, src] ∧ Operand.wf dst = true ∧ Operand.wf src = true ∧
      (∀ base disp size, src = .mem base disp size → size = .none) ∧
      (∀ base disp size, dst = .mem base disp size →
        ((∃ f rm v, i = .movRm8Imm8 f rm v) → size = .byte) ∧
        ((∃ f rm v, i = .movRm16Imm16 f rm v) → size = .word) ∧
        ((∀ f rm v, i ≠ .movRm8Imm8 f rm v) → (∀ f rm v, i ≠ .movRm16Imm16 f rm v) → size = .none))

/-! ### A step -/

/-- 10_state.md R23, R28: a READY step runs the instruction at the cursor. Where bytes of the stream that begin at the
cursor decode to an instruction, `step` is `exec` of that instruction at that state and adds nothing around it. -/
def Obligations.StepRunsDecodedInstruction : Prop :=
  ∀ (s : State) (k : Nat) (bs : List Byte) (i : Instr) (rest : List Byte),
    s.StreamComplete → s.status = .ready → s.slice s.cursor k = some bs → decode bs = .ok (i, rest) →
      step s = exec i s

/-- 30_encoding.md R84: in READY on a complete stream, `decodeAt` is defined at the cursor, and a step applies its
outcome. (R84's order of checks is the spec's decision D13, its truncation record D14, its parameters D3 and D4.) -/
def Obligations.StepAppliesDecodeAt : Prop :=
  ∀ s : State, s.StreamComplete → s.status = .ready → s.cursor < s.n →
    ∃ r, s.decodeAt s.cursor = some r ∧ step s = .next (s.applyOutcome r)

/-- 40_mov_rm_reg.md R100: what a step does at 88, 89, 8A, 8B. -/
def Obligations.RmRegFamilyStep : Prop :=
  ∀ (s : State) (b0 : Byte) (w : Width) (d : Bool),
    (b0, w, d) ∈ [((0x88 : Byte), Width.w8, false), (0x89, .w16, false), (0x8A, .w8, true), (0x8B, .w16, true)] →
    s.StreamComplete → s.status = .ready → s.memRead s.cursor = some b0 →
      (s.n < s.cursor + 2 → step s = .next (s.takeFault .truncatedInstruction s.cursor b0 (s.n - s.cursor))) ∧
      ∀ m : Byte, s.memRead (s.cursor + 1) = some m →
        (s.n < s.cursor + (2 + dispLen (modOf m) (rmOf m)) →
          step s = .next (s.takeFault .truncatedInstruction s.cursor b0 (s.n - s.cursor))) ∧
        (s.cursor + (2 + dispLen (modOf m) (rmOf m)) ≤ s.n →
          ∃ rmop raw, s.resolveRM (s.cursor + 2) (modOf m) (rmOf m) w .none = some rmop ∧
            s.slice s.cursor (2 + dispLen (modOf m) (rmOf m)) = some raw ∧
            step s = .next (s.emit
              { offset := s.cursor, length := 2 + dispLen (modOf m) (rmOf m), raw := raw, mnemonic := .mov,
                operands := if d then [.reg w (regOf m), rmop] else [rmop, .reg w (regOf m)] }))

/-- 41_mov_imm_reg.md R106: what a step does at B0-B7 (w = 0) and B8-BF (w = 1). -/
def Obligations.ImmRegFamilyStep : Prop :=
  ∀ (s : State) (b0 : Byte) (w : Width),
    ((w = .w8 ∧ 0xB0 ≤ b0.toNat ∧ b0.toNat ≤ 0xB7) ∨ (w = .w16 ∧ 0xB8 ≤ b0.toNat ∧ b0.toNat ≤ 0xBF)) →
    s.StreamComplete → s.status = .ready → s.memRead s.cursor = some b0 →
      (s.n < s.cursor + (1 + immLen w) →
        step s = .next (s.takeFault .truncatedInstruction s.cursor b0 (s.n - s.cursor))) ∧
      (s.cursor + (1 + immLen w) ≤ s.n →
        ∃ imm raw, s.immAt w (s.cursor + 1) = some imm ∧ s.slice s.cursor (1 + immLen w) = some raw ∧
          step s = .next (s.emit
            { offset := s.cursor, length := 1 + immLen w, raw := raw, mnemonic := .mov,
              operands := [.reg w (BitVec.ofNat 3 b0.toNat), imm] }))

/-- 42_mov_imm_rm.md R110, with R111 and R112 (decisions D3 and D4): what a step does at C6 and C7 under every value of
the parameters. -/
def Obligations.ImmRmFamilyStep : Prop :=
  ∀ (s : State) (b0 : Byte) (w : Width) (size : SizeKw),
    (b0, w, size) ∈ [((0xC6 : Byte), Width.w8, SizeKw.byte), (0xC7, .w16, .word)] →
    s.StreamComplete → s.status = .ready → s.memRead s.cursor = some b0 →
      (s.n < s.cursor + 2 → step s = .next (s.takeFault .truncatedInstruction s.cursor b0 (s.n - s.cursor))) ∧
      ∀ m : Byte, s.memRead (s.cursor + 1) = some m →
        (s.params.regPolicy = .refuse → regOf m ≠ 0 → step s = .next (s.takeRefusal .regField)) ∧
        ((s.params.regPolicy = .ignore ∨ regOf m = 0) → s.params.dispRule = .refuseUndecided →
          ¬ (modOf m = 0 ∧ rmOf m = 6) → step s = .next (s.takeRefusal .dispUndecided)) ∧
        ((s.params.regPolicy = .ignore ∨ regOf m = 0) →
          (s.params.dispRule = .general ∨ (modOf m = 0 ∧ rmOf m = 6)) →
          (s.n < s.cursor + (2 + dispLen (modOf m) (rmOf m) + immLen w) →
            step s = .next (s.takeFault .truncatedInstruction s.cursor b0 (s.n - s.cursor))) ∧
          (s.cursor + (2 + dispLen (modOf m) (rmOf m) + immLen w) ≤ s.n →
            ∃ rmop imm raw, s.resolveRM (s.cursor + 2) (modOf m) (rmOf m) w size = some rmop ∧
              s.immAt w (s.cursor + 2 + dispLen (modOf m) (rmOf m)) = some imm ∧
              s.slice s.cursor (2 + dispLen (modOf m) (rmOf m) + immLen w) = some raw ∧
              step s = .next (s.emit
                { offset := s.cursor, length := 2 + dispLen (modOf m) (rmOf m) + immLen w, raw := raw,
                  mnemonic := .mov, operands := [rmop, imm] })))

/-- 60_exceptions.md R118: an unassigned first byte faults at its offset with its value and the bytes available, and
nothing else of the state changes, whatever follows the byte. -/
def Obligations.UnassignedOpcodeFaults : Prop :=
  ∀ (s : State) (b : Byte), s.status = .ready → s.memRead s.cursor = some b → dispatch b = none →
    step s = .next { s with
      status := .faulted, faultCode := .unassignedOpcode, faultOffset := s.cursor, faultByte := b,
      faultAvail := s.n - s.cursor }

/-- 10_state.md R30: a step that faults writes STATUS and the four fault registers, at the cursor, and leaves all else,
the cursor and OUT among it. -/
def Obligations.FaultingStepWritesFaultRegistersOnly : Prop :=
  ∀ s t : State, s.status = .ready → step s = .next t → t.status = .faulted →
    ∃ k b, k ≠ FaultCode.none ∧ s.memRead s.cursor = some b ∧
      t = { s with
        status := .faulted, faultCode := k, faultOffset := s.cursor, faultByte := b,
        faultAvail := s.n - s.cursor }

/-- 10_state.md R31 (decisions D3, D4): a step that refuses writes STATUS and REFUSE_REASON and leaves all else; it
happens at a C6 or a C7 only, and under a non-default parameter only. -/
def Obligations.RefusingStepWritesReasonOnly : Prop :=
  ∀ s t : State, s.status = .ready → step s = .next t → t.status = .refused →
    (∃ r, r ≠ RefuseReason.none ∧ t = { s with status := .refused, refuseReason := r }) ∧
    (s.memRead s.cursor = some 0xC6 ∨ s.memRead s.cursor = some 0xC7) ∧
    s.params ≠ Params.default

/-- 10_state.md R20, R29 (decision D23 for HALTED in the same step): a step that changes OUT appends one record at the
cursor, whose raw bytes are the stream's, and advances the cursor by its length inside the stream. -/
def Obligations.EmittingStepAppendsOneRecord : Prop :=
  ∀ s t : State, step s = .next t → t.out ≠ s.out →
    ∃ rec : Record, rec.offset = s.cursor ∧ 2 ≤ rec.length ∧ rec.length ≤ 6 ∧ rec.operands.length = 2 ∧
      s.slice s.cursor rec.length = some rec.raw ∧ s.cursor + rec.length ≤ s.n ∧
      t = { s with
        out := s.out ++ [rec], cursor := s.cursor + rec.length,
        status := if s.cursor + rec.length = s.n then .halted else .ready }

/-- 60_exceptions.md R123 (decision D13): the order of the checks at the ends of the stream. An unassigned byte at the
last offset is unassigned; a missing ModRM byte comes before a refusal; a refusal comes before the length bound, the reg
field's before the displacement rule's. -/
def Obligations.ChecksRunInOrder : Prop :=
  ∀ (s : State) (b0 : Byte), s.StreamComplete → s.status = .ready → s.memRead s.cursor = some b0 →
    (dispatch b0 = none → ∃ t, step s = .next t ∧ t.faultCode = .unassignedOpcode ∧ t.status = .faulted) ∧
    (b0 = 0xC6 ∨ b0 = 0xC7 →
      (s.n = s.cursor + 1 →
        ∃ t, step s = .next t ∧ t.faultCode = .truncatedInstruction ∧ t.status = .faulted ∧ t.faultAvail = 1) ∧
      ∀ m : Byte, s.memRead (s.cursor + 1) = some m →
        (s.params.regPolicy = .refuse ∧ regOf m ≠ 0 →
          ∃ t, step s = .next t ∧ t.status = .refused ∧ t.refuseReason = .regField) ∧
        (s.params.regPolicy = .ignore ∧ s.params.dispRule = .refuseUndecided ∧ ¬ (modOf m = 0 ∧ rmOf m = 6) →
          ∃ t, step s = .next t ∧ t.status = .refused ∧ t.refuseReason = .dispUndecided))

/-- 42_mov_imm_rm.md R115(c), 00_scope.md R14 (derived there): under the default parameters no step refuses. -/
def Obligations.DefaultParametersNeverRefuse : Prop :=
  ∀ s t : State, s.params = Params.default → s.status ≠ .refused → step s = .next t → t.status ≠ .refused

/-- 10_state.md R32 (derived there): in HALTED, FAULTED or REFUSED a step changes nothing. -/
def Obligations.TerminalStatesIgnoreStep : Prop :=
  ∀ s : State, s.status.ended = true → step s = .next s

/-- 20_memory.md R40: no step writes the stream; only RESET installs a new one. -/
def Obligations.StreamIsReadOnly : Prop :=
  (∀ s t : State, step s = .next t → t.body = s.body ∧ t.n = s.n ∧ ∀ a, t.memRead a = s.memRead a) ∧
  (∀ (s t : State) (c : Command), s.command c = .next t → (t.body ≠ s.body ∨ t.n ≠ s.n) →
    ∃ body start, c = .reset body start ∧ t.n = body.length ∧ ∀ a, t.memRead a = body[a]?)

/-- 10_state.md R23: the cursor never goes back, and only an emitted record's length moves it. -/
def Obligations.CursorAdvancesByRecordLengthOnly : Prop :=
  ∀ s t : State, step s = .next t →
    s.cursor ≤ t.cursor ∧
    ((t.cursor = s.cursor ∧ t.out = s.out) ∨
      ∃ rec, t.out = s.out ++ [rec] ∧ rec.offset = s.cursor ∧ t.cursor = s.cursor + rec.length ∧
        s.cursor < t.cursor)

/-- 10_state.md R27: nothing of an earlier instruction reaches the next but the cursor. Two states with one stream, one
cursor, one status and the same parameters do the same step, whatever OUT, the fault registers and REFUSE_REASON hold. -/
def Obligations.NoHiddenStateBetweenInstructions : Prop :=
  ∀ s t s' : State, t.body = s.body → t.n = s.n → t.cursor = s.cursor → t.status = s.status → t.params = s.params →
    s.status = .ready → step s = .next s' →
      ∃ t' recs, step t = .next t' ∧ t'.cursor = s'.cursor ∧ t'.status = s'.status ∧
        s'.out = s.out ++ recs ∧ t'.out = t.out ++ recs ∧
        (s'.status = .faulted → t'.faultCode = s'.faultCode ∧ t'.faultOffset = s'.faultOffset ∧
          t'.faultByte = s'.faultByte ∧ t'.faultAvail = s'.faultAvail) ∧
        (s'.status = .refused → t'.refuseReason = s'.refuseReason)

/-- 30_encoding.md R85 (derived there): the record emitted depends on the instruction's own bytes. Two READY states at
one cursor, with the same parameters and the same bytes there, emit the same record, whatever else their streams
hold. -/
def Obligations.RecordDependsOnItsOwnBytes : Prop :=
  ∀ (s t : State) (rec : Record), s.StreamComplete → t.StreamComplete → s.status = .ready → t.status = .ready →
    t.cursor = s.cursor → t.params = s.params → step s = .next (s.emit rec) →
    t.slice s.cursor rec.length = s.slice s.cursor rec.length → step t = .next (t.emit rec)

/-! ### The meanings -/

/-- 40_mov_rm_reg.md R101, R102: 88 and 89 complete wherever the whole instruction lies in the stream, with the r/m
operand first; the record and the cursor's advance are the whole effect, and nothing else changes. -/
def Obligations.MovToRmFromRegCompletes : Prop :=
  ∀ (s : State) (reg : RegCode) (rm : RmOperand), s.StreamComplete → s.cursor + (2 + rm.dispLength) ≤ s.n →
    ∃ raw, s.slice s.cursor (2 + rm.dispLength) = some raw ∧
      exec (.movRm8R8 reg rm) s = .next { s with
        out := s.out ++ [⟨s.cursor, 2 + rm.dispLength, raw, .mov, [rm.operand .w8 .none, .reg .w8 reg]⟩],
        cursor := s.cursor + (2 + rm.dispLength),
        status := if s.cursor + (2 + rm.dispLength) = s.n then .halted else .ready } ∧
      exec (.movRm16R16 reg rm) s = .next { s with
        out := s.out ++ [⟨s.cursor, 2 + rm.dispLength, raw, .mov, [rm.operand .w16 .none, .reg .w16 reg]⟩],
        cursor := s.cursor + (2 + rm.dispLength),
        status := if s.cursor + (2 + rm.dispLength) = s.n then .halted else .ready }

/-- 40_mov_rm_reg.md R103, R104: 8A and 8B complete wherever the whole instruction lies in the stream, with the register
first; the record and the cursor's advance are the whole effect, and nothing else changes. -/
def Obligations.MovToRegFromRmCompletes : Prop :=
  ∀ (s : State) (reg : RegCode) (rm : RmOperand), s.StreamComplete → s.cursor + (2 + rm.dispLength) ≤ s.n →
    ∃ raw, s.slice s.cursor (2 + rm.dispLength) = some raw ∧
      exec (.movR8Rm8 reg rm) s = .next { s with
        out := s.out ++ [⟨s.cursor, 2 + rm.dispLength, raw, .mov, [.reg .w8 reg, rm.operand .w8 .none]⟩],
        cursor := s.cursor + (2 + rm.dispLength),
        status := if s.cursor + (2 + rm.dispLength) = s.n then .halted else .ready } ∧
      exec (.movR16Rm16 reg rm) s = .next { s with
        out := s.out ++ [⟨s.cursor, 2 + rm.dispLength, raw, .mov, [.reg .w16 reg, rm.operand .w16 .none]⟩],
        cursor := s.cursor + (2 + rm.dispLength),
        status := if s.cursor + (2 + rm.dispLength) = s.n then .halted else .ready }

/-- 41_mov_imm_reg.md R107: B0-B7 complete wherever two bytes are left, with the immediate byte not extended; the record
and the cursor's advance are the whole effect, and nothing else changes. -/
def Obligations.MovByteImmediateToRegCompletes : Prop :=
  ∀ (s : State) (reg : RegCode) (imm : Byte), s.StreamComplete → s.cursor + 2 ≤ s.n →
    ∃ raw, s.slice s.cursor 2 = some raw ∧
      exec (.movR8Imm8 reg imm) s = .next { s with
        out := s.out ++ [⟨s.cursor, 2, raw, .mov, [.reg .w8 reg, .imm8 imm]⟩],
        cursor := s.cursor + 2,
        status := if s.cursor + 2 = s.n then .halted else .ready }

/-- 41_mov_imm_reg.md R108: B8-BF complete wherever three bytes are left; the record and the cursor's advance are the
whole effect, and nothing else changes. -/
def Obligations.MovWordImmediateToRegCompletes : Prop :=
  ∀ (s : State) (reg : RegCode) (imm : Word), s.StreamComplete → s.cursor + 3 ≤ s.n →
    ∃ raw, s.slice s.cursor 3 = some raw ∧
      exec (.movR16Imm16 reg imm) s = .next { s with
        out := s.out ++ [⟨s.cursor, 3, raw, .mov, [.reg .w16 reg, .imm16 imm]⟩],
        cursor := s.cursor + 3,
        status := if s.cursor + 3 = s.n then .halted else .ready }

/-- 42_mov_imm_rm.md R111-R114 (decisions D3, D4): C6 and C7 complete wherever the parameters admit them and the whole
instruction lies in the stream; a memory destination carries `BYTE` or `WORD`; the record and the cursor's advance are
the whole effect, and nothing else changes. -/
def Obligations.MovImmediateToRmCompletes : Prop :=
  ∀ (s : State) (regField : RegCode) (rm : RmOperand) (imm8 : Byte) (imm16 : Word), s.StreamComplete →
    ImmRmAdmitted s.params regField rm →
    (s.cursor + (3 + rm.dispLength) ≤ s.n →
      ∃ raw, s.slice s.cursor (3 + rm.dispLength) = some raw ∧
        exec (.movRm8Imm8 regField rm imm8) s = .next { s with
          out := s.out ++ [⟨s.cursor, 3 + rm.dispLength, raw, .mov, [rm.operand .w8 .byte, .imm8 imm8]⟩],
          cursor := s.cursor + (3 + rm.dispLength),
          status := if s.cursor + (3 + rm.dispLength) = s.n then .halted else .ready }) ∧
    (s.cursor + (4 + rm.dispLength) ≤ s.n →
      ∃ raw, s.slice s.cursor (4 + rm.dispLength) = some raw ∧
        exec (.movRm16Imm16 regField rm imm16) s = .next { s with
          out := s.out ++ [⟨s.cursor, 4 + rm.dispLength, raw, .mov, [rm.operand .w16 .word, .imm16 imm16]⟩],
          cursor := s.cursor + (4 + rm.dispLength),
          status := if s.cursor + (4 + rm.dispLength) = s.n then .halted else .ready })

/-- 42_mov_imm_rm.md R111, R112 (decisions D3, D4): where C6 and C7 are refused, and with which reason. -/
def Obligations.MovImmediateToRmRefused : Prop :=
  ∀ (s : State) (regField : RegCode) (rm : RmOperand) (imm8 : Byte) (imm16 : Word),
    (s.params.regPolicy = .refuse → regField ≠ 0 →
      exec (.movRm8Imm8 regField rm imm8) s = .next { s with status := .refused, refuseReason := .regField } ∧
      exec (.movRm16Imm16 regField rm imm16) s = .next { s with status := .refused, refuseReason := .regField }) ∧
    ((s.params.regPolicy = .ignore ∨ regField = 0) → s.params.dispRule = .refuseUndecided →
      (∀ a, rm ≠ .direct a) → rm.wf = true →
      exec (.movRm8Imm8 regField rm imm8) s = .next { s with status := .refused, refuseReason := .dispUndecided } ∧
      exec (.movRm16Imm16 regField rm imm16) s =
        .next { s with status := .refused, refuseReason := .dispUndecided })

/-- 60_exceptions.md R119 (decision D14), 30_encoding.md R86: an instruction that extends past the stream end faults with
the opcode byte and the bytes available, and nothing else changes; no record is emitted. Of C6 and C7 it says so where
the parameters admit them; where they do not, the refusal comes first (R123). -/
def Obligations.TruncatedInstructionFaults : Prop :=
  ∀ (s : State) (i : Instr) (b : Byte), s.memRead s.cursor = some b → s.n < s.cursor + i.length →
    (∀ f rm v, i = .movRm8Imm8 f rm v → ImmRmAdmitted s.params f rm) →
    (∀ f rm v, i = .movRm16Imm16 f rm v → ImmRmAdmitted s.params f rm) →
      exec i s = .next { s with
        status := .faulted, faultCode := .truncatedInstruction, faultOffset := s.cursor, faultByte := b,
        faultAvail := s.n - s.cursor }

/-- 10_state.md R17, R25: the frame of every instruction. Where `exec` answers a next state, the stream, N and the
parameters are unchanged; every byte reads as before; the fault registers are unchanged unless a fault was taken, then
OUT and the cursor are; REFUSE_REASON is unchanged unless a refusal was taken; OUT keeps all it held. -/
def Obligations.ExecFrame : Prop :=
  ∀ (i : Instr) (s t : State), exec i s = .next t →
    t.params = s.params ∧ t.body = s.body ∧ t.n = s.n ∧ (∀ a, t.memRead a = s.memRead a) ∧
    (t.status ≠ .faulted → t.faultCode = s.faultCode ∧ t.faultOffset = s.faultOffset ∧ t.faultByte = s.faultByte ∧
      t.faultAvail = s.faultAvail) ∧
    (t.status ≠ .refused → t.refuseReason = s.refuseReason) ∧
    (t.status = .faulted ∨ t.status = .refused → t.out = s.out ∧ t.cursor = s.cursor) ∧
    (∃ recs, t.out = s.out ++ recs ∧ recs.length ≤ 1)

/-- 95_test_vectors.md section 2.7: the parameters never affect 88-8B or B0-BF. -/
def Obligations.ParametersAffectImmRmOnly : Prop :=
  ∀ (i : Instr) (s t : State) (p : Params), (∀ f rm v, i ≠ .movRm8Imm8 f rm v) →
    (∀ f rm v, i ≠ .movRm16Imm16 f rm v) → exec i s = .next t →
      exec i { s with params := p } = .next { t with params := p }

/-! ### RESET and runs -/

/-- 70_reset_and_hazards.md R136-R140 (decisions D15, D18, D19): RESET in any state, with the value of every register
after it. -/
def Obligations.ResetSetsEveryRegister : Prop :=
  ∀ (s : State) (body : List Byte) (start : Nat),
    ∃ t, s.command (.reset body start) = .next t ∧ t.params = s.params ∧ t.n = body.length ∧
      (∀ a, t.memRead a = body[a]?) ∧ t.refuseReason = .none ∧ t.out = [] ∧
      (start ≤ body.length →
        t.cursor = start ∧ t.faultCode = .none ∧ t.faultOffset = 0 ∧ t.faultByte = 0x00 ∧ t.faultAvail = 0 ∧
        (start < body.length → t.status = .ready) ∧ (start = body.length → t.status = .halted)) ∧
      (body.length < start →
        t.cursor = body.length ∧ t.status = .faulted ∧ t.faultCode = .badStartOffset ∧ t.faultOffset = start ∧
        t.faultByte = 0x00 ∧ t.faultAvail = 0)

/-- 70_reset_and_hazards.md R137, R138; which reset `State.reset` is: the model's choice, log 3. The invariant holds at
it, and it is the state after RESET(empty, 0) under the default parameters. -/
def Obligations.InvariantHoldsAtReset : Prop :=
  State.reset.Inv ∧ State.reset = State.afterReset Params.default [] 0

/-- 70_reset_and_hazards.md R136-R139, 00_scope.md R7: every RESET establishes the invariant, START past the end
included. -/
def Obligations.ResetEstablishesInvariant : Prop :=
  ∀ (s t : State) (body : List Byte) (start : Nat), body.length ≤ 2 ^ 31 - 1 →
    s.command (.reset body start) = .next t → t.Inv

/-- 10_state.md R22, R24, R25, R20; 60_exceptions.md R118, R119, R124: every step keeps the invariant. -/
def Obligations.StepKeepsInvariant : Prop :=
  ∀ s t : State, s.Inv → step s = .next t → t.Inv

/-- 20_memory.md R41, 60_exceptions.md R121 (derived there): from a state that meets the invariant a step always answers
a next state, so no byte outside the stream is ever read. -/
def Obligations.StepNeverReadsOutsideStream : Prop :=
  ∀ s : State, s.Inv → ∃ t, step s = .next t

/-- The canonical form of the stream (log 4): a state that meets the invariant holds it. -/
def Obligations.InvariantStreamIsCanonical : Prop :=
  ∀ s : State, s.Inv → Memory.wf s.body = true ∧ ∀ a, (s.memRead a).isSome = true ↔ a < s.n

/-- 10_state.md R33 (derived there): every step keeps the records end to end, from any start to the cursor. -/
def Obligations.StepKeepsRecordsContiguous : Prop :=
  ∀ (s t : State) (start : Nat), OutFrom start s.out s.cursor → step s = .next t → OutFrom start t.out t.cursor

/-- 10_state.md R33, 60_exceptions.md R122 (derived there): in a run from any RESET inside the stream, the offsets are
strictly increasing, the first is START and each next one adds the length before it; a run that halts has taken the
stream exactly, and one that faults has taken exactly the bytes before FAULT_OFFSET. -/
def Obligations.RunOffsetsAreCumulative : Prop :=
  ∀ (p : Params) (body : List Byte) (start k : Nat) (t : State), start ≤ body.length →
    steps k (State.afterReset p body start) = .next t →
      OutFrom start t.out t.cursor ∧ (t.out.map Record.offset).Pairwise (· < ·) ∧
      start + totalLength t.out = t.cursor ∧
      (t.status = .halted → start + totalLength t.out = body.length) ∧
      (t.status = .faulted → start + totalLength t.out = t.faultOffset)

/-- 70_reset_and_hazards.md R154 (derived there): from every state that meets the invariant, and so from every RESET, the
decoder has left READY after at most floor((N - CURSOR) / 2) + 1 steps. -/
def Obligations.RunLeavesReadyWithinBound : Prop :=
  ∀ s : State, s.Inv → ∃ k t, k ≤ (s.n - s.cursor) / 2 + 1 ∧ steps k s = .next t ∧ t.status ≠ .ready

/-! ### The text of a record -/

/-- 95_test_vectors.md S1-S4 and section 2.3 (decisions D6-D9): worked examples, from bytes to text. -/
def Obligations.WorkedExampleTexts : Prop :=
  ∀ bs txt, (bs, txt) ∈
      [(([0x89, 0xD8] : List Byte), "mov ax,bx".toList), ([0xB8, 0x34, 0x12], "mov ax,1234".toList),
        ([0xC6, 0x06, 0x05, 0x00, 0x2A], "mov byte [0005],2a".toList), ([0x8B, 0x46, 0x02], "mov ax,[bp+02]".toList),
        ([0x8B, 0x86, 0xFE, 0xFF], "mov ax,[bp-0002]".toList), ([0x8B, 0x86, 0x00, 0x80], "mov ax,[bp-8000]".toList)] →
    ∃ i, decode bs = .ok (i, []) ∧ Record.text ⟨0, i.length, bs, .mov, i.operands⟩ = txt

/-- 30_encoding.md R94, R95 (decisions D6, D7): the spelling of every displacement. -/
def Obligations.DisplacementSpelling : Prop :=
  (∀ d : Byte, dispText (.d8 (sext16 d)) =
    if d.toNat < 128 then '+' :: hex2 d.toNat else '-' :: hex2 (256 - d.toNat)) ∧
  (∀ v : Word, dispText (.d16 v) =
    if v.toNat < 32768 then '+' :: hex4 v.toNat else '-' :: hex4 (65536 - v.toNat))

/-- 30_encoding.md R67, R91-R98 (decisions D6-D9): the text of an operand determines it, so no two operands of records
are spelled alike. (The text of a record does not determine its bytes: 40_mov_rm_reg.md R105(c).) -/
def Obligations.OperandTextDeterminesOperand : Prop :=
  ∀ o o' : Operand, Operand.wf o = true → Operand.wf o' = true → Operand.text o = Operand.text o' → o = o'

/-! ### The loader interface -/

/-- 70_reset_and_hazards.md R141: a file whose first two bytes are not 01 03, in that order, is not loaded, and no RESET
is issued. -/
def Obligations.WrongMagicIsNotLoaded : Prop :=
  ∀ (file : List Byte) (p : Params) (start : Nat), file.take 2 ≠ [0x01, 0x03] →
    (∃ e, load file = .error e) ∧ ∃ e, boot p file start = .error e

/-- 70_reset_and_hazards.md R143: the four relocation fields are as read for `headerLen > 0x20` and exactly zero
otherwise, whatever the file holds. -/
def Obligations.RelocationFieldsReadOrForcedToZero : Prop :=
  ∀ (file : List Byte) (image : Image), load file = .ok image →
    (image.header.headerLen.toNat ≤ 0x20 →
      image.header.relocTextSize = 0 ∧ image.header.relocDataSize = 0 ∧ image.header.textBase = 0 ∧
        image.header.dataBase = 0) ∧
    (0x20 < image.header.headerLen.toNat →
      fileDword file 32 = .ok image.header.relocTextSize ∧ fileDword file 36 = .ok image.header.relocDataSize ∧
        fileDword file 40 = .ok image.header.textBase ∧ fileDword file 44 = .ok image.header.dataBase)

/-- 70_reset_and_hazards.md R144: the text segment is the `textSize` bytes from file offset `headerLen`, the data
segment the `dataSize` bytes after it; the text segment, and nothing of the data segment, is the decoder's stream. -/
def Obligations.SegmentsAreTheDeclaredSlices : Prop :=
  ∀ (file : List Byte) (image : Image), load file = .ok image →
    image.text.length = image.header.textSize.toNat ∧ image.data.length = image.header.dataSize.toNat ∧
    (∀ k, k < image.header.textSize.toNat → image.text[k]? = file[image.header.headerLen.toNat + k]?) ∧
    (∀ k, k < image.header.dataSize.toNat →
      image.data[k]? = file[image.header.headerLen.toNat + image.header.textSize.toNat + k]?) ∧
    ∀ (p : Params) (start : Nat), ∃ s, boot p file start = .ok s ∧ s.n = image.header.textSize.toNat ∧
      ∀ a, s.memRead a = if a < image.header.textSize.toNat then file[image.header.headerLen.toNat + a]? else none

/-- 70_reset_and_hazards.md R142 (offsets derived there), R145 (decisions D16, D26): a loaded file has the magic, a
header of at least 32 bytes, sizes that are not negative and all the bytes it declares, and its sizes stand
little-endian at their offsets. -/
def Obligations.LoadedImageIsComplete : Prop :=
  ∀ (file : List Byte) (image : Image), load file = .ok image →
    file[0]? = some 0x01 ∧ file[1]? = some 0x03 ∧ file[4]? = some image.header.headerLen ∧
    fileDword file 8 = .ok image.header.textSize ∧ fileDword file 12 = .ok image.header.dataSize ∧
    32 ≤ image.header.headerLen.toNat ∧ 0 ≤ image.header.textSize.toInt ∧ 0 ≤ image.header.dataSize.toInt ∧
    image.header.headerLen.toNat + image.header.textSize.toNat + image.header.dataSize.toNat ≤ file.length

/-- 70_reset_and_hazards.md R145-R147, 00_scope.md R7: a booted decoder meets the invariant, holds the whole text segment
and stands at START; the header's `entry` has no part in it. -/
def Obligations.BootEstablishesInvariant : Prop :=
  ∀ (p : Params) (file : List Byte) (start : Nat) (s : State), boot p file start = .ok s →
    s.Inv ∧ ∃ image, load file = .ok image ∧ s.n = image.header.textSize.toNat ∧
      (∀ a, s.memRead a = image.text[a]?) ∧ (start ≤ s.n → s.cursor = start)

/-- 00_scope.md R8, 20_memory.md R45 (decision D25): where the host gives no START, a run begins at offset 0, the first
byte of the text segment, by RESET in any state and by booting a file, whatever the header's `entry` is. -/
def Obligations.StartDefaultsToFirstByte : Prop :=
  (∀ (s : State) (body : List Byte), ∃ t, s.command (.reset body) = .next t ∧ t.cursor = 0 ∧
    t.memRead t.cursor = body[0]? ∧ t.faultCode = .none ∧ (body ≠ [] → t.status = .ready)) ∧
  ∀ (p : Params) (file : List Byte) (s : State), boot p file = .ok s →
    s.cursor = 0 ∧ ∃ image, load file = .ok image ∧ s.memRead s.cursor = image.text[0]?

/-- 30_encoding.md R99 (decision D11; lowercase digits of the offset are the model's choice, log 15): the offset is spelled
with exactly OFFSET_DIGITS digits, each the digit of its place where the offset fits; raw bytes are spelled with two
digits each, in stream order, and their spelling determines them. -/
def Obligations.OffsetAndRawSpelling : Prop :=
  (∀ digits offset : Nat, (offsetText digits offset).length = digits ∧
    (offset < 16 ^ digits → ∀ k, k < digits →
      (offsetText digits offset)[digits - 1 - k]? = some (hexDigit (offset / 16 ^ k % 16)))) ∧
  (∀ digits offset offset' : Nat, offset < 16 ^ digits → offset' < 16 ^ digits →
    offsetText digits offset = offsetText digits offset' → offset = offset') ∧
  (∀ (bs : List Byte) (k : Nat) (b : Byte), bs[k]? = some b →
    ((rawText bs).drop (2 * k)).take 2 = [hexDigit (b.toNat / 16), hexDigit (b.toNat % 16)]) ∧
  ∀ bs bs' : List Byte, rawText bs = rawText bs' → bs = bs'
end

