-- ==== Sys2Proof/Laws/Decode.lean ====
section
/-! SUPPORT. The field, byte-order and base-table laws that decoding and encoding rest on. -/

namespace Sys2Proof

/-! ### ModRM fields -/

@[simp] theorem modOf_modRMByte (mod : ModField) (reg rm : RegCode) : modOf (modRMByte mod reg rm) = mod := by
  revert mod reg rm; decide

@[simp] theorem regOf_modRMByte (mod : ModField) (reg rm : RegCode) : regOf (modRMByte mod reg rm) = reg := by
  revert mod reg rm; decide

@[simp] theorem rmOf_modRMByte (mod : ModField) (reg rm : RegCode) : rmOf (modRMByte mod reg rm) = rm := by
  revert mod reg rm; decide

@[simp] theorem modRMByte_fields (m : Byte) : modRMByte (modOf m) (regOf m) (rmOf m) = m := by
  revert m; decide

/-! ### Byte order -/

@[simp] theorem le16_low_high (v : Word) : le16 (lowByte v) (highByte v) = v := by
  unfold le16 lowByte highByte
  ext i hi
  simp only [BitVec.getElem_append, BitVec.getElem_extractLsb']
  split
  · simp [BitVec.getLsbD_eq_getElem hi]
  · have h8 : 8 + (i - 8) = i := by omega
    simp [h8, BitVec.getLsbD_eq_getElem hi]

@[simp] theorem lowByte_le16 (lo hi : Byte) : lowByte (le16 lo hi) = lo := by
  unfold le16 lowByte
  ext i h
  have happ := BitVec.getLsbD_append (x := hi) (y := lo) (i := i)
  rw [if_pos h] at happ
  rw [BitVec.getElem_extractLsb', Nat.zero_add, ← BitVec.getLsbD_eq_getElem h]
  exact happ

@[simp] theorem highByte_le16 (lo hi : Byte) : highByte (le16 lo hi) = hi := by
  unfold le16 highByte
  ext i h
  have happ := BitVec.getLsbD_append (x := hi) (y := lo) (i := 8 + i)
  rw [if_neg (by omega), Nat.add_sub_cancel_left] at happ
  rw [BitVec.getElem_extractLsb', ← BitVec.getLsbD_eq_getElem h]
  exact happ

/-! ### The base table (literals in the form simp gives them) -/

/-- The base table gives back the base from its code, under mod = 1. -/
theorem eaBase_one_rmCode (base : EaBase) (hb : base ≠ .direct) : eaBase 1#2 base.rmCode = base := by
  cases base <;> simp_all [eaBase, EaBase.rmCode]

/-- The base table gives back the base from its code, under mod = 2. -/
theorem eaBase_two_rmCode (base : EaBase) (hb : base ≠ .direct) : eaBase 2#2 base.rmCode = base := by
  cases base <;> simp_all [eaBase, EaBase.rmCode]

/-- The base table gives back the base from its code, under the form without displacement. -/
theorem eaBase_zero_rmCode (base : EaBase) (hp : base ≠ .bp) (hb : base ≠ .direct) :
    eaBase 0#2 base.rmCode = base ∧ base.rmCode ≠ 6#3 := by
  cases base <;> simp_all [eaBase, EaBase.rmCode]

/-- The code of the base the table gives is the code it was looked up by. -/
@[simp] theorem rmCode_eaBase (mod : ModField) (rm : RegCode) : (eaBase mod rm).rmCode = rm := by
  revert mod rm; decide

theorem eaBase_ne_direct (mod : ModField) (rm : RegCode) (h : mod ≠ 0#2) : eaBase mod rm ≠ .direct := by
  revert mod rm; decide

theorem eaBase_zero_ne (rm : RegCode) (h : rm ≠ 6#3) : eaBase 0#2 rm ≠ .bp ∧ eaBase 0#2 rm ≠ .direct := by
  revert rm; decide

/-- The four values of a mod field. -/
theorem mod_cases (mod : ModField) : mod = 0#2 ∨ mod = 1#2 ∨ mod = 2#2 ∨ mod = 3#2 := by
  revert mod; decide

/-! ### The resolver -/

/-- The resolver reads a well-formed operand back from its own fields and bytes. -/
theorem resolveRm_dispBytes (rm : RmOperand) (h : rm.wf = true) (rest : List Byte) :
    resolveRm rm.modField rm.rmField (rm.dispBytes ++ rest) = some (rm, rest) := by
  cases rm with
  | reg code => simp [resolveRm, RmOperand.modField, RmOperand.dispBytes, RmOperand.rmField]
  | direct addr => simp [resolveRm, RmOperand.modField, RmOperand.rmField, RmOperand.dispBytes, wordBytes]
  | noDisp base =>
    simp only [RmOperand.wf, Bool.and_eq_true, bne_iff_ne] at h
    simp [resolveRm, RmOperand.modField, RmOperand.rmField, RmOperand.dispBytes, eaBase_zero_rmCode base h.1 h.2]
  | disp8 base d =>
    simp only [RmOperand.wf, bne_iff_ne] at h
    simp [resolveRm, RmOperand.modField, RmOperand.rmField, RmOperand.dispBytes, eaBase_one_rmCode base h]
  | disp16 base d =>
    simp only [RmOperand.wf, bne_iff_ne] at h
    simp [resolveRm, RmOperand.modField, RmOperand.rmField, RmOperand.dispBytes, wordBytes, eaBase_two_rmCode base h]

/-- What the resolver answers is a well-formed operand of the fields it was given, and its bytes are those taken. -/
theorem resolveRm_some {mod : ModField} {rm : RegCode} {bs rest : List Byte} {o : RmOperand}
    (h : resolveRm mod rm bs = some (o, rest)) :
    o.wf = true ∧ o.modField = mod ∧ o.rmField = rm ∧ bs = o.dispBytes ++ rest := by
  rcases mod_cases mod with rfl | rfl | rfl | rfl
  · by_cases h6 : rm = 6#3
    · subst h6
      rcases bs with _ | ⟨lo, _ | ⟨hi, bs⟩⟩ <;> simp [resolveRm] at h
      obtain ⟨rfl, rfl⟩ := h
      simp [RmOperand.wf, RmOperand.modField, RmOperand.rmField, RmOperand.dispBytes, wordBytes]
    · simp [resolveRm, h6] at h
      obtain ⟨rfl, rfl⟩ := h
      simp [RmOperand.wf, RmOperand.modField, RmOperand.rmField, RmOperand.dispBytes, eaBase_zero_ne rm h6]
  · rcases bs with _ | ⟨lo, bs⟩ <;> simp [resolveRm] at h
    obtain ⟨rfl, rfl⟩ := h
    simp [RmOperand.wf, RmOperand.modField, RmOperand.rmField, RmOperand.dispBytes, eaBase_ne_direct]
  · rcases bs with _ | ⟨lo, _ | ⟨hi, bs⟩⟩ <;> simp [resolveRm] at h
    obtain ⟨rfl, rfl⟩ := h
    simp [RmOperand.wf, RmOperand.modField, RmOperand.rmField, RmOperand.dispBytes, wordBytes, eaBase_ne_direct]
  · simp [resolveRm] at h
    obtain ⟨rfl, rfl⟩ := h
    simp [RmOperand.wf, RmOperand.modField, RmOperand.rmField, RmOperand.dispBytes]

/-! ### The dispatch table -/

@[simp] theorem dispatch_88 : dispatch 0x88#8 = some ⟨.rmReg, .w8, false, true, .mov⟩ := by decide
@[simp] theorem dispatch_89 : dispatch 0x89#8 = some ⟨.rmReg, .w16, false, true, .mov⟩ := by decide
@[simp] theorem dispatch_8A : dispatch 0x8A#8 = some ⟨.rmReg, .w8, true, true, .mov⟩ := by decide
@[simp] theorem dispatch_8B : dispatch 0x8B#8 = some ⟨.rmReg, .w16, true, true, .mov⟩ := by decide
@[simp] theorem dispatch_C6 : dispatch 0xC6#8 = some ⟨.immRm, .w8, false, true, .mov⟩ := by decide
@[simp] theorem dispatch_C7 : dispatch 0xC7#8 = some ⟨.immRm, .w16, false, true, .mov⟩ := by decide

/-- The register code of an immediate-to-register opcode byte. -/
theorem dispatch_immReg8 (reg : RegCode) :
    dispatch (0b10110#5 ++ reg : BitVec (5 + 3)) = some ⟨.immReg, .w8, false, false, .mov⟩ ∧
      opcodeReg (0b10110#5 ++ reg : BitVec (5 + 3)) = reg := by
  revert reg; decide

theorem dispatch_immReg16 (reg : RegCode) :
    dispatch (0b10111#5 ++ reg : BitVec (5 + 3)) = some ⟨.immReg, .w16, false, false, .mov⟩ ∧
      opcodeReg (0b10111#5 ++ reg : BitVec (5 + 3)) = reg := by
  revert reg; decide

/-- The eight descriptors and the first bytes that have them: a property of every admitted first byte follows from it
for each of the eight. -/
theorem dispatch_cases {b0 : Byte} {desc : Descriptor} (h : dispatch b0 = some desc) :
    (b0 = 0x88#8 ∧ desc = ⟨.rmReg, .w8, false, true, .mov⟩) ∨
    (b0 = 0x89#8 ∧ desc = ⟨.rmReg, .w16, false, true, .mov⟩) ∨
    (b0 = 0x8A#8 ∧ desc = ⟨.rmReg, .w8, true, true, .mov⟩) ∨
    (b0 = 0x8B#8 ∧ desc = ⟨.rmReg, .w16, true, true, .mov⟩) ∨
    (b0 = (0b10110#5 ++ opcodeReg b0 : BitVec (5 + 3)) ∧ desc = ⟨.immReg, .w8, false, false, .mov⟩) ∨
    (b0 = (0b10111#5 ++ opcodeReg b0 : BitVec (5 + 3)) ∧ desc = ⟨.immReg, .w16, false, false, .mov⟩) ∨
    (b0 = 0xC6#8 ∧ desc = ⟨.immRm, .w8, false, true, .mov⟩) ∨
    (b0 = 0xC7#8 ∧ desc = ⟨.immRm, .w16, false, true, .mov⟩) := by
  have table : ∀ b : Byte, ∀ d ∈ dispatch b,
      (b = 0x88#8 ∧ d = ⟨.rmReg, .w8, false, true, .mov⟩) ∨
      (b = 0x89#8 ∧ d = ⟨.rmReg, .w16, false, true, .mov⟩) ∨
      (b = 0x8A#8 ∧ d = ⟨.rmReg, .w8, true, true, .mov⟩) ∨
      (b = 0x8B#8 ∧ d = ⟨.rmReg, .w16, true, true, .mov⟩) ∨
      (b = (0b10110#5 ++ opcodeReg b : BitVec (5 + 3)) ∧ d = ⟨.immReg, .w8, false, false, .mov⟩) ∨
      (b = (0b10111#5 ++ opcodeReg b : BitVec (5 + 3)) ∧ d = ⟨.immReg, .w16, false, false, .mov⟩) ∨
      (b = 0xC6#8 ∧ d = ⟨.immRm, .w8, false, true, .mov⟩) ∨
      (b = 0xC7#8 ∧ d = ⟨.immRm, .w16, false, true, .mov⟩) := by
    decide
  exact table b0 desc h

/-! ### Lengths -/

/-- An r/m operand has as many displacement bytes as `dispLen` says (30_encoding.md R72). -/
theorem dispBytes_length (rm : RmOperand) (h : rm.wf = true) : rm.dispBytes.length = rm.dispLength := by
  cases rm with
  | noDisp base => cases base <;> simp_all [RmOperand.wf, RmOperand.dispLength, RmOperand.dispBytes, dispLen,
      RmOperand.modField, RmOperand.rmField, EaBase.rmCode]
  | _ => simp [RmOperand.dispLength, RmOperand.dispBytes, dispLen, RmOperand.modField, RmOperand.rmField, wordBytes]

theorem dispLen_le (mod : ModField) (rm : RegCode) : dispLen mod rm ≤ 2 := by
  revert mod rm; decide

theorem dispLength_le (rm : RmOperand) : rm.dispLength ≤ 2 := dispLen_le _ _

/-- No instruction is longer than 6 bytes (30_encoding.md R54). -/
theorem length_le_six (i : Instr) : i.length ≤ 6 := by
  cases i with
  | movR8Imm8 reg imm => simp [Instr.length, immLen]
  | movR16Imm16 reg imm => simp [Instr.length, immLen]
  | movRm8R8 reg rm => have := dispLength_le rm; simp only [Instr.length]; omega
  | movRm16R16 reg rm => have := dispLength_le rm; simp only [Instr.length]; omega
  | movR8Rm8 reg rm => have := dispLength_le rm; simp only [Instr.length]; omega
  | movR16Rm16 reg rm => have := dispLength_le rm; simp only [Instr.length]; omega
  | movRm8Imm8 f rm imm => have := dispLength_le rm; simp only [Instr.length, immLen]; omega
  | movRm16Imm16 f rm imm => have := dispLength_le rm; simp only [Instr.length, immLen]; omega

/-- No instruction is shorter than 2 bytes (30_encoding.md R54). -/
theorem two_le_length (i : Instr) : 2 ≤ i.length := by
  cases i <;> simp only [Instr.length, immLen] <;> omega

/-! ### Where decoding fails -/

/-- The resolver fails for want of its one or two bytes only. -/
theorem resolveRm_none {mod : ModField} {rm : RegCode} {bs : List Byte} (h : resolveRm mod rm bs = none) :
    bs.length < 2 := by
  rcases bs with _ | ⟨a, _ | ⟨b, bs⟩⟩
  · decide
  · simp
  · rcases mod_cases mod with rfl | rfl | rfl | rfl <;> simp [resolveRm] at h
    split at h <;> cases h

/-- A first byte without a descriptor is what makes decoding fail as unassigned. -/
theorem decode_unassigned {bs : List Byte} (h : decode bs = .error .unassigned) :
    ∃ b0 rest, bs = b0 :: rest ∧ dispatch b0 = none := by
  rcases bs with _ | ⟨b0, bs⟩
  · cases h
  refine ⟨b0, bs, rfl, ?_⟩
  cases hd : dispatch b0 with
  | none => rfl
  | some desc =>
    exfalso
    simp only [decode, hd] at h
    split at h
    · unfold decodeImmReg at h
      split at h <;> cases h
    · split at h
      · cases h
      · unfold decodeRmReg at h
        split at h <;> cases h
    · split at h
      · cases h
      · unfold decodeImmRm at h
        split at h
        · split at h <;> cases h
        · cases h

/-- An immediate-to-register form fails for want of its one or two immediate bytes only. -/
theorem decodeImmReg_error {w : Width} {b0 : Byte} {bs : List Byte} {e : DecodeError}
    (h : decodeImmReg w b0 bs = .error e) : bs.length < 2 := by
  rcases bs with _ | ⟨p, _ | ⟨q, bs⟩⟩
  · decide
  · simp
  · cases w <;> cases h

/-- A register/memory form fails for want of its displacement bytes only. -/
theorem decodeRmReg_error {w : Width} {d : Bool} {m : Byte} {bs : List Byte} {e : DecodeError}
    (h : decodeRmReg w d m bs = .error e) : bs.length < 2 := by
  unfold decodeRmReg at h
  split at h
  · cases h
  · exact resolveRm_none ‹_›

/-- An immediate-to-r/m form fails for want of its displacement and immediate bytes only. -/
theorem decodeImmRm_error {w : Width} {m : Byte} {bs : List Byte} {e : DecodeError}
    (h : decodeImmRm w m bs = .error e) : bs.length < 4 := by
  cases hr : resolveRm (modOf m) (rmOf m) bs with
  | none => have := resolveRm_none hr; omega
  | some o =>
    obtain ⟨rm, rest⟩ := o
    obtain ⟨hwf, -, -, hbs⟩ := resolveRm_some hr
    have hd := dispBytes_length rm hwf
    have hd2 := dispLength_le rm
    have hlen := congrArg List.length hbs
    rw [List.length_append] at hlen
    have hrest : rest.length < 2 := by
      rcases rest with _ | ⟨p, _ | ⟨q, rest⟩⟩
      · decide
      · simp
      · cases w <;> simp [decodeImmRm, hr] at h
    omega

/-- Decoding fails as truncated on fewer than 6 bytes only, and with an admitted first byte. -/
theorem decode_truncated {bs : List Byte} {x : Option Byte} (h : decode bs = .error (.truncated x)) :
    bs.length < 6 ∧ ∃ b0 rest, bs = b0 :: rest ∧ dispatch b0 ≠ none := by
  rcases bs with _ | ⟨b0, bs⟩
  · cases h
  cases hd : dispatch b0 with
  | none => simp [decode, hd] at h
  | some desc =>
    refine ⟨?_, b0, bs, rfl, by simp [hd]⟩
    obtain ⟨cls, w, d, hasModRM, mnemonic⟩ := desc
    cases cls with
    | immReg =>
      have hl := decodeImmReg_error (by simpa only [decode, hd] using h)
      simp only [List.length_cons]; omega
    | rmReg =>
      rcases bs with _ | ⟨m, bs⟩
      · simp
      · have hl := decodeRmReg_error (by simpa only [decode, hd] using h)
        simp only [List.length_cons]; omega
    | immRm =>
      rcases bs with _ | ⟨m, bs⟩
      · simp
      · have hl := decodeImmRm_error (by simpa only [decode, hd] using h)
        simp only [List.length_cons]; omega

/-- An instruction is decoded from an admitted first byte only. -/
theorem decode_ok_admitted {bs : List Byte} {i : Instr} {rest : List Byte} (h : decode bs = .ok (i, rest)) :
    ∃ b0 tail, bs = b0 :: tail ∧ dispatch b0 ≠ none := by
  rcases bs with _ | ⟨b0, bs⟩
  · cases h
  refine ⟨b0, bs, rfl, fun hd => ?_⟩
  simp [decode, hd] at h

end Sys2Proof
end

