-- ==== Sys2Proof/Laws/State.lean ====
section
/-! SUPPORT. What each update of the state does to each field, one lemma per field per update. -/

namespace Sys2Proof.Machine

variable (s : State)

/-! ### Taking a fault (10_state.md R30) -/

@[simp] theorem takeFault_params (k : FaultCode) (o : Nat) (b : Byte) (a : Nat) :
    (s.takeFault k o b a).params = s.params := rfl
@[simp] theorem takeFault_body (k : FaultCode) (o : Nat) (b : Byte) (a : Nat) :
    (s.takeFault k o b a).body = s.body := rfl
@[simp] theorem takeFault_n (k : FaultCode) (o : Nat) (b : Byte) (a : Nat) :
    (s.takeFault k o b a).n = s.n := rfl
@[simp] theorem takeFault_cursor (k : FaultCode) (o : Nat) (b : Byte) (a : Nat) :
    (s.takeFault k o b a).cursor = s.cursor := rfl
@[simp] theorem takeFault_status (k : FaultCode) (o : Nat) (b : Byte) (a : Nat) :
    (s.takeFault k o b a).status = .faulted := rfl
@[simp] theorem takeFault_faultCode (k : FaultCode) (o : Nat) (b : Byte) (a : Nat) :
    (s.takeFault k o b a).faultCode = k := rfl
@[simp] theorem takeFault_faultOffset (k : FaultCode) (o : Nat) (b : Byte) (a : Nat) :
    (s.takeFault k o b a).faultOffset = o := rfl
@[simp] theorem takeFault_faultByte (k : FaultCode) (o : Nat) (b : Byte) (a : Nat) :
    (s.takeFault k o b a).faultByte = b := rfl
@[simp] theorem takeFault_faultAvail (k : FaultCode) (o : Nat) (b : Byte) (a : Nat) :
    (s.takeFault k o b a).faultAvail = a := rfl
@[simp] theorem takeFault_refuseReason (k : FaultCode) (o : Nat) (b : Byte) (a : Nat) :
    (s.takeFault k o b a).refuseReason = s.refuseReason := rfl
@[simp] theorem takeFault_out (k : FaultCode) (o : Nat) (b : Byte) (a : Nat) :
    (s.takeFault k o b a).out = s.out := rfl

/-! ### Taking a refusal (10_state.md R31) -/

@[simp] theorem takeRefusal_params (r : RefuseReason) : (s.takeRefusal r).params = s.params := rfl
@[simp] theorem takeRefusal_body (r : RefuseReason) : (s.takeRefusal r).body = s.body := rfl
@[simp] theorem takeRefusal_n (r : RefuseReason) : (s.takeRefusal r).n = s.n := rfl
@[simp] theorem takeRefusal_cursor (r : RefuseReason) : (s.takeRefusal r).cursor = s.cursor := rfl
@[simp] theorem takeRefusal_status (r : RefuseReason) : (s.takeRefusal r).status = .refused := rfl
@[simp] theorem takeRefusal_faultCode (r : RefuseReason) : (s.takeRefusal r).faultCode = s.faultCode := rfl
@[simp] theorem takeRefusal_faultOffset (r : RefuseReason) : (s.takeRefusal r).faultOffset = s.faultOffset := rfl
@[simp] theorem takeRefusal_faultByte (r : RefuseReason) : (s.takeRefusal r).faultByte = s.faultByte := rfl
@[simp] theorem takeRefusal_faultAvail (r : RefuseReason) : (s.takeRefusal r).faultAvail = s.faultAvail := rfl
@[simp] theorem takeRefusal_refuseReason (r : RefuseReason) : (s.takeRefusal r).refuseReason = r := rfl
@[simp] theorem takeRefusal_out (r : RefuseReason) : (s.takeRefusal r).out = s.out := rfl

/-! ### Emitting a record (10_state.md R29) -/

@[simp] theorem emit_params (rec : Record) :
    (s.emit rec).params = s.params := rfl
@[simp] theorem emit_body (rec : Record) :
    (s.emit rec).body = s.body := rfl
@[simp] theorem emit_n (rec : Record) :
    (s.emit rec).n = s.n := rfl
@[simp] theorem emit_cursor (rec : Record) :
    (s.emit rec).cursor = s.cursor + rec.length := rfl
@[simp] theorem emit_status (rec : Record) :
    (s.emit rec).status = if s.cursor + rec.length = s.n then .halted else .ready := rfl
@[simp] theorem emit_faultCode (rec : Record) :
    (s.emit rec).faultCode = s.faultCode := rfl
@[simp] theorem emit_faultOffset (rec : Record) :
    (s.emit rec).faultOffset = s.faultOffset := rfl
@[simp] theorem emit_faultByte (rec : Record) :
    (s.emit rec).faultByte = s.faultByte := rfl
@[simp] theorem emit_faultAvail (rec : Record) :
    (s.emit rec).faultAvail = s.faultAvail := rfl
@[simp] theorem emit_refuseReason (rec : Record) :
    (s.emit rec).refuseReason = s.refuseReason := rfl
@[simp] theorem emit_out (rec : Record) :
    (s.emit rec).out = s.out ++ [rec] := rfl

/-! ### RESET with START inside the stream or at its end (70_reset_and_hazards.md R137, R138) -/

section AfterReset

variable (p : Params) (body : List Byte) (start : Nat)

@[simp] theorem afterReset_params : (State.afterReset p body start).params = p := by
  unfold State.afterReset; dsimp only; split <;> rfl
@[simp] theorem afterReset_body : (State.afterReset p body start).body = Memory.ofBytes 0 body := by
  unfold State.afterReset; dsimp only; split <;> rfl
@[simp] theorem afterReset_n : (State.afterReset p body start).n = body.length := by
  unfold State.afterReset; dsimp only; split <;> rfl
@[simp] theorem afterReset_refuseReason : (State.afterReset p body start).refuseReason = .none := by
  unfold State.afterReset; dsimp only; split <;> rfl
@[simp] theorem afterReset_out : (State.afterReset p body start).out = [] := by
  unfold State.afterReset; dsimp only; split <;> rfl
theorem afterReset_cursor (h : start ≤ body.length) :
    (State.afterReset p body start).cursor = start := by
  unfold State.afterReset; simp [Nat.not_lt.mpr h]
theorem afterReset_status (h : start ≤ body.length) :
    (State.afterReset p body start).status = if start < body.length then .ready else .halted := by
  unfold State.afterReset; simp [Nat.not_lt.mpr h]
theorem afterReset_faultCode (h : start ≤ body.length) :
    (State.afterReset p body start).faultCode = .none := by
  unfold State.afterReset; simp [Nat.not_lt.mpr h]
theorem afterReset_faultOffset (h : start ≤ body.length) :
    (State.afterReset p body start).faultOffset = 0 := by
  unfold State.afterReset; simp [Nat.not_lt.mpr h]
theorem afterReset_faultByte (h : start ≤ body.length) :
    (State.afterReset p body start).faultByte = 0x00 := by
  unfold State.afterReset; simp [Nat.not_lt.mpr h]
theorem afterReset_faultAvail (h : start ≤ body.length) :
    (State.afterReset p body start).faultAvail = 0 := by
  unfold State.afterReset; simp [Nat.not_lt.mpr h]

/-! ### RESET with START past the end (70_reset_and_hazards.md R139) -/

theorem afterReset_past_end_cursor (h : body.length < start) :
    (State.afterReset p body start).cursor = body.length := by
  unfold State.afterReset; simp [h]
theorem afterReset_past_end_status (h : body.length < start) :
    (State.afterReset p body start).status = .faulted := by
  unfold State.afterReset; simp [h]
theorem afterReset_past_end_faultCode (h : body.length < start) :
    (State.afterReset p body start).faultCode = .badStartOffset := by
  unfold State.afterReset; simp [h]
theorem afterReset_past_end_faultOffset (h : body.length < start) :
    (State.afterReset p body start).faultOffset = start := by
  unfold State.afterReset; simp [h]
theorem afterReset_past_end_faultByte (h : body.length < start) :
    (State.afterReset p body start).faultByte = 0x00 := by
  unfold State.afterReset; simp [h]
theorem afterReset_past_end_faultAvail (h : body.length < start) :
    (State.afterReset p body start).faultAvail = 0 := by
  unfold State.afterReset; simp [h]

end AfterReset

end Sys2Proof.Machine
end

