-- ==== Sys2Proof/Laws/Memory.lean ====
section
/-! SUPPORT. The memory laws: canonical form, read after write, the cells of a byte sequence, and reading a slice or a
window of the stream. -/

namespace Sys2Proof.Machine

/-! ### Canonical form -/

@[simp] theorem Memory.wf_nil : Memory.wf [] = true := rfl

@[simp] theorem Memory.wf_singleton (c : Host.Cell) : Memory.wf [c] = true := rfl

theorem Memory.wf_cons_cons (c d : Host.Cell) (m : Memory) :
    Memory.wf (c :: d :: m) = true ↔ c.1 < d.1 ∧ Memory.wf (d :: m) = true := by
  simp [Memory.wf]

theorem Memory.wf_tail {c : Host.Cell} {m : Memory} (h : Memory.wf (c :: m) = true) : Memory.wf m = true := by
  cases m with
  | nil => rfl
  | cons d m => exact ((Memory.wf_cons_cons c d m).mp h).2

/-- The first offset of a written memory is the smaller of the first two candidates. -/
theorem Memory.write_head (m : Memory) (a : Nat) (v : Byte) :
    ∃ c rest, Memory.write m a v = c :: rest ∧ (c.1 = a ∨ ∃ d rest', m = d :: rest' ∧ c.1 = d.1) := by
  cases m with
  | nil => exact ⟨(a, v), [], rfl, .inl rfl⟩
  | cons d m =>
    obtain ⟨k, b⟩ := d
    unfold Memory.write
    split
    · exact ⟨_, _, rfl, .inl rfl⟩
    · split
      · exact ⟨_, _, rfl, .inl rfl⟩
      · exact ⟨_, _, rfl, .inr ⟨_, _, rfl, rfl⟩⟩

/-- A write keeps the canonical form. -/
theorem Memory.write_wf (m : Memory) (a : Nat) (v : Byte) (h : Memory.wf m = true) :
    Memory.wf (Memory.write m a v) = true := by
  induction m with
  | nil => rfl
  | cons c m ih =>
    obtain ⟨k, b⟩ := c
    have htail := Memory.wf_tail h
    unfold Memory.write
    split
    · rename_i hlt
      exact (Memory.wf_cons_cons _ _ _).mpr ⟨hlt, h⟩
    · rename_i hge
      split
      · rename_i heq
        subst heq
        cases m with
        | nil => rfl
        | cons d m => exact (Memory.wf_cons_cons _ _ _).mpr ((Memory.wf_cons_cons _ _ _).mp h)
      · rename_i hne
        obtain ⟨c', rest, hw, hc⟩ := Memory.write_head m a v
        have hwf := ih htail
        rw [hw] at hwf ⊢
        refine (Memory.wf_cons_cons _ _ _).mpr ⟨?_, hwf⟩
        rcases hc with hc | ⟨d, rest', hm, hc⟩
        · simp only [hc]; omega
        · subst hm
          rw [hc]
          exact ((Memory.wf_cons_cons _ _ _).mp h).1

/-- Writing several bytes keeps the canonical form. -/
theorem Memory.writeBytes_wf (bs : List Byte) (m : Memory) (a : Nat) (h : Memory.wf m = true) :
    Memory.wf (Memory.writeBytes m a bs) = true := by
  induction bs generalizing m a with
  | nil => exact h
  | cons b bs ih => exact ih _ _ (Memory.write_wf m a b h)

/-- The cells of a byte sequence are in canonical form. -/
theorem Memory.ofBytes_wf (a : Nat) (bs : List Byte) : Memory.wf (Memory.ofBytes a bs) = true := by
  induction bs generalizing a with
  | nil => rfl
  | cons b bs ih =>
    cases bs with
    | nil => rfl
    | cons c bs =>
      have := ih (a + 1)
      simp only [Memory.ofBytes] at this ⊢
      exact (Memory.wf_cons_cons _ _ _).mpr ⟨Nat.lt_succ_self a, this⟩

/-- The stream after reset is in canonical form. -/
theorem reset_body_wf : Memory.wf State.reset.body = true := rfl

/-- The stream `RESET` installs is in canonical form. -/
theorem afterReset_body_wf (p : Params) (body : List Byte) (start : Nat) :
    Memory.wf (State.afterReset p body start).body = true := by
  rw [afterReset_body]; exact Memory.ofBytes_wf 0 body

/-! ### Reading what was written -/

theorem Memory.read_write_same (m : Memory) (a : Nat) (v : Byte) : Memory.read (Memory.write m a v) a = some v := by
  induction m with
  | nil => simp [Memory.write, Memory.read]
  | cons c m ih =>
    obtain ⟨k, b⟩ := c
    unfold Memory.write
    split
    · simp [Memory.read]
    · split
      · simp [Memory.read]
      · rename_i hne
        simp only [Memory.read, ih]
        rw [if_neg (fun h => hne h.symm)]

theorem Memory.read_write_other (m : Memory) (a x : Nat) (v : Byte) (hx : x ≠ a) :
    Memory.read (Memory.write m a v) x = Memory.read m x := by
  induction m with
  | nil => simp [Memory.write, Memory.read, Ne.symm hx]
  | cons c m ih =>
    obtain ⟨k, b⟩ := c
    unfold Memory.write
    split
    · simp [Memory.read, Ne.symm hx]
    · split
      · rename_i hak
        subst hak
        simp [Memory.read, Ne.symm hx]
      · simp only [Memory.read, ih]

/-! ### The cells of a byte sequence -/

theorem Memory.ofBytes_offsets (a : Nat) (bs : List Byte) :
    (Memory.ofBytes a bs).map Prod.fst = List.range' a bs.length := by
  induction bs generalizing a with
  | nil => rfl
  | cons b bs ih => simp [Memory.ofBytes, ih, List.range'_succ]

theorem Memory.read_ofBytes (a : Nat) (bs : List Byte) (x : Nat) :
    Memory.read (Memory.ofBytes a bs) x = if a ≤ x then bs[x - a]? else none := by
  induction bs generalizing a with
  | nil => simp [Memory.ofBytes, Memory.read]
  | cons b bs ih =>
    simp only [Memory.ofBytes, Memory.read]
    by_cases h : a = x
    · subst h; simp
    · rw [if_neg h, ih]
      by_cases h1 : a + 1 ≤ x
      · have hx : x - a = (x - (a + 1)) + 1 := by omega
        rw [if_pos h1, if_pos (by omega), hx]; rfl
      · rw [if_neg h1, if_neg (by omega)]

/-- A byte is listed exactly at the listed offsets. -/
theorem Memory.read_eq_none_iff (m : Memory) (a : Nat) : Memory.read m a = none ↔ a ∉ m.map Prod.fst := by
  induction m with
  | nil => simp [Memory.read]
  | cons c m ih =>
    obtain ⟨k, b⟩ := c
    simp only [Memory.read, List.map_cons, List.mem_cons, not_or]
    split
    · rename_i h; simp [h]
    · rename_i h; rw [ih]; constructor
      · exact fun hm => ⟨fun e => h e.symm, hm⟩
      · exact fun hm => hm.2

/-! ### Reading the stream -/

theorem memRead_of_le {s : State} {a : Nat} (h : s.n ≤ a) : s.memRead a = none := by
  simp [State.memRead, Nat.not_lt.mpr h]

theorem memRead_lt {s : State} {a : Nat} {b : Byte} (h : s.memRead a = some b) : a < s.n := by
  by_contra hlt
  rw [memRead_of_le (Nat.not_lt.mp hlt)] at h
  cases h

/-- In a stream that lists every offset below N, every offset below N reads. -/
theorem memRead_of_complete {s : State} (h : s.body.map Prod.fst = List.range s.n) {a : Nat} (ha : a < s.n) :
    ∃ b, s.memRead a = some b := by
  rw [State.memRead, if_pos ha]
  cases hr : Memory.read s.body a with
  | some b => exact ⟨b, rfl⟩
  | none =>
    rw [Memory.read_eq_none_iff, h] at hr
    exact absurd (List.mem_range.mpr ha) hr

theorem slice_length {s : State} {a k : Nat} {bs : List Byte} (h : s.slice a k = some bs) : bs.length = k := by
  induction k generalizing a bs with
  | zero => simp only [State.slice, Option.some.injEq] at h; subst h; rfl
  | succ k ih =>
    simp only [State.slice] at h
    split at h
    · cases h
    · rw [Option.map_eq_some_iff] at h
      obtain ⟨rest, hr, rfl⟩ := h
      simp [ih hr]

/-- The bytes of a slice are the stream's. -/
theorem slice_getElem {s : State} {a k : Nat} {bs : List Byte} (h : s.slice a k = some bs) (j : Nat) (hj : j < k) :
    s.memRead (a + j) = bs[j]? := by
  induction k generalizing a bs j with
  | zero => omega
  | succ k ih =>
    simp only [State.slice] at h
    split at h
    · cases h
    · rename_i b hb
      rw [Option.map_eq_some_iff] at h
      obtain ⟨rest, hr, rfl⟩ := h
      cases j with
      | zero => simp [hb]
      | succ j =>
        have hj' := ih hr j (by omega)
        rw [List.getElem?_cons_succ, ← hj']
        congr 1
        omega

/-- A shorter slice is the front of a longer one. -/
theorem slice_take {s : State} {a k : Nat} {bs : List Byte} (h : s.slice a k = some bs) (j : Nat) (hj : j ≤ k) :
    s.slice a j = some (bs.take j) := by
  induction k generalizing a bs j with
  | zero =>
    obtain rfl : j = 0 := by omega
    simp [State.slice]
  | succ k ih =>
    cases j with
    | zero => simp [State.slice]
    | succ j =>
      simp only [State.slice] at h ⊢
      split at h
      · cases h
      · rw [Option.map_eq_some_iff] at h
        obtain ⟨rest, hr, rfl⟩ := h
        simp [ih hr j (by omega)]

/-- The window's first byte is the byte at its offset. -/
theorem window_cons {s : State} {a k : Nat} {b : Byte} {bs : List Byte} (h : s.window a k = b :: bs) :
    s.memRead a = some b := by
  cases k with
  | zero => cases h
  | succ k =>
    simp only [State.window] at h
    split at h
    · cases h
    · rename_i b' hb
      cases h
      exact hb

theorem window_length_le (s : State) (a k : Nat) : (s.window a k).length ≤ k := by
  induction k generalizing a with
  | zero => simp [State.window]
  | succ k ih =>
    simp only [State.window]
    split
    · simp
    · simpa using ih (a + 1)

/-- In a complete stream, every slice below N exists. -/
theorem slice_of_complete {s : State} (h : s.body.map Prod.fst = List.range s.n) {a k : Nat} (hak : a + k ≤ s.n) :
    ∃ bs, s.slice a k = some bs := by
  induction k generalizing a with
  | zero => exact ⟨[], rfl⟩
  | succ k ih =>
    obtain ⟨b, hb⟩ := memRead_of_complete h (a := a) (by omega)
    obtain ⟨bs, hbs⟩ := ih (a := a + 1) (by omega)
    exact ⟨b :: bs, by simp [State.slice, hb, hbs]⟩

/-- In a complete stream, the window from `a` is the slice of what is left, up to `k` bytes. -/
theorem slice_window_of_complete {s : State} (h : s.body.map Prod.fst = List.range s.n) (a k : Nat) :
    s.slice a (min k (s.n - a)) = some (s.window a k) := by
  induction k generalizing a with
  | zero => simp [State.slice, State.window]
  | succ k ih =>
    by_cases ha : a < s.n
    · obtain ⟨b, hb⟩ := memRead_of_complete h ha
      have hmin : min (k + 1) (s.n - a) = min k (s.n - (a + 1)) + 1 := by omega
      rw [hmin, State.slice, State.window, hb]
      simp [ih (a + 1)]
    · have hmin : min (k + 1) (s.n - a) = 0 := by omega
      rw [hmin, State.window, memRead_of_le (Nat.not_lt.mp ha)]
      rfl

theorem window_length_of_complete {s : State} (h : s.body.map Prod.fst = List.range s.n) (a k : Nat) :
    (s.window a k).length = min k (s.n - a) :=
  slice_length (slice_window_of_complete h a k)

/-- Reading depends on the stream alone. -/
theorem memRead_congr {s t : State} (hb : t.body = s.body) (hn : t.n = s.n) (a : Nat) : t.memRead a = s.memRead a := by
  simp [State.memRead, hb, hn]

theorem slice_congr {s t : State} (hb : t.body = s.body) (hn : t.n = s.n) (a k : Nat) : t.slice a k = s.slice a k := by
  induction k generalizing a with
  | zero => rfl
  | succ k ih => simp [State.slice, memRead_congr hb hn, ih]

/-! ### No outcome of a step changes what is read (20_memory.md R40) -/

@[simp] theorem takeFault_memRead (s : State) (k : FaultCode) (o : Nat) (b : Byte) (v a : Nat) :
    (s.takeFault k o b v).memRead a = s.memRead a := rfl

@[simp] theorem takeRefusal_memRead (s : State) (r : RefuseReason) (a : Nat) :
    (s.takeRefusal r).memRead a = s.memRead a := rfl

@[simp] theorem emit_memRead (s : State) (rec : Record) (a : Nat) : (s.emit rec).memRead a = s.memRead a := rfl

@[simp] theorem takeFault_slice (s : State) (k : FaultCode) (o : Nat) (b : Byte) (v a len : Nat) :
    (s.takeFault k o b v).slice a len = s.slice a len := by
  apply slice_congr <;> rfl

@[simp] theorem takeRefusal_slice (s : State) (r : RefuseReason) (a len : Nat) :
    (s.takeRefusal r).slice a len = s.slice a len := by
  apply slice_congr <;> rfl

@[simp] theorem emit_slice (s : State) (rec : Record) (a len : Nat) :
    (s.emit rec).slice a len = s.slice a len := by
  apply slice_congr <;> rfl

/-- What is looked at depends on the stream and the cursor alone. -/
theorem window_congr {s t : State} (hb : t.body = s.body) (hn : t.n = s.n) (a k : Nat) :
    t.window a k = s.window a k := by
  induction k generalizing a with
  | zero => rfl
  | succ k ih => simp [State.window, memRead_congr hb hn, ih]

end Sys2Proof.Machine
end

