-- ==== Sys2Proof/Laws/PerInstr.lean ====
section
/-! SUPPORT. Family EncodedLength: a well-formed instruction is encoded in as many bytes as its length says, between 2
and 6 (30_encoding.md R54, R82). One lemma per constructor. -/

namespace Sys2Proof.Laws.EncodedLength

/-- The encoding of a well-formed instruction is as long as its length says, 2 to 6 bytes. -/
def Statement (i : Instr) : Prop := i.wf = true → (encode i).length = i.length ∧ 2 ≤ i.length ∧ i.length ≤ 6

theorem movRm8R8 (reg : RegCode) (rm : RmOperand) : Statement (.movRm8R8 reg rm) := fun h => by
  have h1 := dispBytes_length rm h
  have h2 := dispLength_le rm
  simp only [encode, encodeModRM, Instr.length, List.length_cons]; omega

theorem movRm16R16 (reg : RegCode) (rm : RmOperand) : Statement (.movRm16R16 reg rm) := fun h => by
  have h1 := dispBytes_length rm h
  have h2 := dispLength_le rm
  simp only [encode, encodeModRM, Instr.length, List.length_cons]; omega

theorem movR8Rm8 (reg : RegCode) (rm : RmOperand) : Statement (.movR8Rm8 reg rm) := fun h => by
  have h1 := dispBytes_length rm h
  have h2 := dispLength_le rm
  simp only [encode, encodeModRM, Instr.length, List.length_cons]; omega

theorem movR16Rm16 (reg : RegCode) (rm : RmOperand) : Statement (.movR16Rm16 reg rm) := fun h => by
  have h1 := dispBytes_length rm h
  have h2 := dispLength_le rm
  simp only [encode, encodeModRM, Instr.length, List.length_cons]; omega

theorem movR8Imm8 (reg : RegCode) (imm : Byte) : Statement (.movR8Imm8 reg imm) := fun _ => by
  simp [encode, Instr.length, immLen]

theorem movR16Imm16 (reg : RegCode) (imm : Word) : Statement (.movR16Imm16 reg imm) := fun _ => by
  simp [encode, Instr.length, immLen, wordBytes]

theorem movRm8Imm8 (regField : RegCode) (rm : RmOperand) (imm : Byte) : Statement (.movRm8Imm8 regField rm imm) :=
  fun h => by
    have h1 := dispBytes_length rm h
    have h2 := dispLength_le rm
    simp only [encode, encodeModRM, Instr.length, immLen, List.length_cons, List.length_append, List.length_nil]
    omega

theorem movRm16Imm16 (regField : RegCode) (rm : RmOperand) (imm : Word) :
    Statement (.movRm16Imm16 regField rm imm) := fun h => by
  have h1 := dispBytes_length rm h
  have h2 := dispLength_le rm
  simp only [encode, encodeModRM, Instr.length, immLen, wordBytes, List.length_cons, List.length_append,
    List.length_nil]
  omega

end Sys2Proof.Laws.EncodedLength
end

