-- ==== Sys2Proof/Laws/Step.lean ====
section
/-! SUPPORT. What each shared operation, each meaning and a step can do, once each. -/

namespace Sys2Proof.Machine

/-- A fault at the cursor is taken exactly where the cursor's byte exists. -/
theorem faultAtCursor_eq_next {s t : State} {k : FaultCode} :
    s.faultAtCursor k = .next t ↔
      ∃ b, s.memRead s.cursor = some b ∧ t = s.takeFault k s.cursor b (s.n - s.cursor) := by
  unfold State.faultAtCursor
  cases s.memRead s.cursor with
  | none => simp
  | some b => simp [eq_comm]

/-- A whole instruction at the cursor is emitted, or it is found truncated. -/
theorem emitDecoded_eq_next {s t : State} {i : Instr} :
    s.emitDecoded i = .next t ↔
      (s.n < s.cursor + i.length ∧ s.faultAtCursor .truncatedInstruction = .next t) ∨
      (s.cursor + i.length ≤ s.n ∧ ∃ raw, s.slice s.cursor i.length = some raw ∧
        t = s.emit ⟨s.cursor, i.length, raw, .mov, i.operands⟩) := by
  unfold State.emitDecoded
  by_cases h : s.n < s.cursor + i.length
  · simp [h, Nat.not_le.mpr h]
  · rw [if_neg h]
    cases s.slice s.cursor i.length with
    | none => simp [h]
    | some raw => simp [h, Nat.not_lt.mp h, eq_comm]

/-- C6 and C7 are refused, or go on to the record. -/
theorem emitUnlessRefused_eq_next {s t : State} {regField : RegCode} {rm : RmOperand} {i : Instr} :
    s.emitUnlessRefused regField rm i = .next t ↔
      (∃ r, immRmRefusal s.params regField rm.modField rm.rmField = some r ∧ t = s.takeRefusal r) ∨
      (immRmRefusal s.params regField rm.modField rm.rmField = none ∧ s.emitDecoded i = .next t) := by
  unfold State.emitUnlessRefused
  cases immRmRefusal s.params regField rm.modField rm.rmField with
  | none => simp
  | some r => simp [eq_comm]

/-- A refusal of C6 or C7 is never the reason `NONE`. -/
theorem immRmRefusal_ne_none {p : Params} {reg : RegCode} {mod : ModField} {rm : RegCode} {r : RefuseReason}
    (h : immRmRefusal p reg mod rm = some r) : r ≠ .none := by
  unfold immRmRefusal at h
  split at h
  · cases h; decide
  · split at h
    · cases h; decide
    · cases h

/-- What `exec` can do, for every instruction: a refusal, a truncation fault, or the record of the instruction. -/
theorem exec_cases {s t : State} {i : Instr} (h : exec i s = .next t) :
    (∃ r reg mod rm, immRmRefusal s.params reg mod rm = some r ∧ t = s.takeRefusal r) ∨
    (s.n < s.cursor + i.length ∧ ∃ b, s.memRead s.cursor = some b ∧
      t = s.takeFault .truncatedInstruction s.cursor b (s.n - s.cursor)) ∨
    (s.cursor + i.length ≤ s.n ∧ ∃ raw, s.slice s.cursor i.length = some raw ∧
      t = s.emit ⟨s.cursor, i.length, raw, .mov, i.operands⟩) := by
  have emitted : ∀ {i : Instr}, s.emitDecoded i = .next t →
      (s.n < s.cursor + i.length ∧ ∃ b, s.memRead s.cursor = some b ∧
        t = s.takeFault .truncatedInstruction s.cursor b (s.n - s.cursor)) ∨
      (s.cursor + i.length ≤ s.n ∧ ∃ raw, s.slice s.cursor i.length = some raw ∧
        t = s.emit ⟨s.cursor, i.length, raw, .mov, i.operands⟩) := by
    intro i hi
    rcases emitDecoded_eq_next.mp hi with ⟨hl, hf⟩ | h
    · exact .inl ⟨hl, faultAtCursor_eq_next.mp hf⟩
    · exact .inr h
  have orRefused : ∀ {i : Instr} {regField : RegCode} {rm : RmOperand},
      s.emitUnlessRefused regField rm i = .next t →
      (∃ r reg mod rm, immRmRefusal s.params reg mod rm = some r ∧ t = s.takeRefusal r) ∨
        s.emitDecoded i = .next t := by
    intro i regField rm hi
    rcases emitUnlessRefused_eq_next.mp hi with ⟨r, hr, ht⟩ | ⟨-, hi⟩
    · exact .inl ⟨r, _, _, _, hr, ht⟩
    · exact .inr hi
  cases i with
  | movRm8Imm8 regField rm imm => exact (orRefused h).imp_right emitted
  | movRm16Imm16 regField rm imm => exact (orRefused h).imp_right emitted
  | movRm8R8 reg rm => exact .inr (emitted h)
  | movRm16R16 reg rm => exact .inr (emitted h)
  | movR8Rm8 reg rm => exact .inr (emitted h)
  | movR16Rm16 reg rm => exact .inr (emitted h)
  | movR8Imm8 reg imm => exact .inr (emitted h)
  | movR16Imm16 reg imm => exact .inr (emitted h)

/-- TRUNCATED_INSTRUCTION is taken where the bytes looked at reach the stream end. -/
theorem truncatedAtCursor_eq_next {s t : State} :
    s.truncatedAtCursor = .next t ↔
      s.n ≤ s.cursor + s.fetchBytes.length ∧ s.faultAtCursor .truncatedInstruction = .next t := by
  unfold State.truncatedAtCursor
  split
  · rename_i h; simp [Nat.not_le.mpr h]
  · rename_i h; simp [Nat.not_lt.mp h]

/-- What an incomplete instruction at the cursor leads to: UNASSIGNED_OPCODE, TRUNCATED_INSTRUCTION at the stream end, or
a refusal of C6 or C7. -/
theorem decodeFailed_cases {s t : State} {e : DecodeError} (h : s.decodeFailed e = .next t) :
    (∃ r reg mod rm, immRmRefusal s.params reg mod rm = some r ∧ t = s.takeRefusal r) ∨
    (e = .unassigned ∧ ∃ b, s.memRead s.cursor = some b ∧
      t = s.takeFault .unassignedOpcode s.cursor b (s.n - s.cursor)) ∨
    ((∃ m, e = .truncated m) ∧ s.n ≤ s.cursor + s.fetchBytes.length ∧ ∃ b, s.memRead s.cursor = some b ∧
      t = s.takeFault .truncatedInstruction s.cursor b (s.n - s.cursor)) := by
  have truncated : s.truncatedAtCursor = .next t →
      s.n ≤ s.cursor + s.fetchBytes.length ∧ ∃ b, s.memRead s.cursor = some b ∧
        t = s.takeFault .truncatedInstruction s.cursor b (s.n - s.cursor) := fun ht =>
    ⟨(truncatedAtCursor_eq_next.mp ht).1, faultAtCursor_eq_next.mp (truncatedAtCursor_eq_next.mp ht).2⟩
  cases e with
  | noByte => cases h
  | unassigned => exact .inr (.inl ⟨rfl, faultAtCursor_eq_next.mp h⟩)
  | truncated m =>
    cases m with
    | none => exact .inr (.inr ⟨⟨_, rfl⟩, truncated h⟩)
    | some m =>
      simp only [State.decodeFailed] at h
      split at h
      · rename_i r hr
        cases h
        exact .inl ⟨r, _, _, _, hr, rfl⟩
      · exact .inr (.inr ⟨⟨_, rfl⟩, truncated h⟩)

/-- What a step can do: nothing outside READY; in READY, emit the record of the decoded instruction, take one of the two
faults of `STEP` at the cursor, or take a refusal. -/
theorem step_cases {s t : State} (h : step s = .next t) :
    (s.status ≠ .ready ∧ t = s) ∨
    (s.status = .ready ∧
      ((∃ i rest raw, decode s.fetchBytes = .ok (i, rest) ∧ s.cursor + i.length ≤ s.n ∧
          s.slice s.cursor i.length = some raw ∧ t = s.emit ⟨s.cursor, i.length, raw, .mov, i.operands⟩) ∨
        (∃ b, s.memRead s.cursor = some b ∧ dispatch b = none ∧
          t = s.takeFault .unassignedOpcode s.cursor b (s.n - s.cursor)) ∨
        (∃ b, s.memRead s.cursor = some b ∧ dispatch b ≠ none ∧ s.n - s.cursor < 6 ∧
          t = s.takeFault .truncatedInstruction s.cursor b (s.n - s.cursor)) ∨
        (∃ r reg mod rm, immRmRefusal s.params reg mod rm = some r ∧ t = s.takeRefusal r))) := by
  unfold step at h
  split at h
  case h_1 hs =>
    refine .inr ⟨hs, ?_⟩
    split at h
    case h_1 i rest hd =>
      rcases exec_cases h with hr | ⟨hlt, b, hb, ht⟩ | ⟨hl, raw, hraw, ht⟩
      · exact .inr (.inr (.inr hr))
      · obtain ⟨b0, tail, hbs, hadm⟩ := decode_ok_admitted hd
        have hb0 := window_cons hbs
        rw [hb] at hb0
        cases hb0
        have hsix := length_le_six i
        exact .inr (.inr (.inl ⟨b, hb, hadm, by omega, ht⟩))
      · exact .inl ⟨i, rest, raw, hd, hl, hraw, ht⟩
    case h_2 e hd =>
      rcases decodeFailed_cases h with hr | ⟨rfl, b, hb, ht⟩ | ⟨⟨m, rfl⟩, hl, b, hb, ht⟩
      · exact .inr (.inr (.inr hr))
      · obtain ⟨b0, tail, hbs, hadm⟩ := decode_unassigned hd
        have hb0 := window_cons hbs
        rw [hb] at hb0
        cases hb0
        exact .inr (.inl ⟨b, hb, hadm, ht⟩)
      · obtain ⟨hsix, b0, tail, hbs, hadm⟩ := decode_truncated hd
        have hb0 := window_cons hbs
        rw [hb] at hb0
        cases hb0
        exact .inr (.inr (.inl ⟨b, hb, hadm, by omega, ht⟩))
  all_goals
    rename_i hs
    cases h
    exact .inl ⟨by simp [hs], rfl⟩

end Sys2Proof.Machine
end

