-- ==== Sys2Proof/Laws/Text.lean ====
section
/-! SUPPORT. Laws of the hexadecimal spellings: their lengths, and that each fixed width is one instance of the general
one. -/

namespace Sys2Proof.Machine

@[simp] theorem hex2_length (v : Nat) : (hex2 v).length = 2 := rfl

@[simp] theorem hex4_length (v : Nat) : (hex4 v).length = 4 := rfl

@[simp] theorem hexText_length (digits v : Nat) : (hexText digits v).length = digits := by
  induction digits generalizing v with
  | zero => rfl
  | succ k ih => simp [hexText, ih]

theorem hexText_two (v : Nat) : hexText 2 v = hex2 v := by
  simp [hexText, hex2]

theorem hexText_four (v : Nat) : hexText 4 v = hex4 v := by
  have h2 : v / 16 / 16 % 16 = v / 256 % 16 := by omega
  have h3 : v / 16 / 16 / 16 % 16 = v / 256 / 16 % 16 := by omega
  have h1 : v / 16 % 16 = v % 256 / 16 % 16 := by omega
  have h0 : v % 16 = v % 256 % 16 := by omega
  simp only [hexText, hex4, hex2, List.nil_append, List.cons_append]
  rw [h3, h2, h1, h0]

@[simp] theorem offsetText_length (digits offset : Nat) : (offsetText digits offset).length = digits :=
  hexText_length _ _

theorem offsetText_of_fits {digits offset : Nat} (h : offset < 16 ^ digits) :
    offsetText digits offset = hexText digits offset := by
  rw [offsetText, if_pos h]

@[simp] theorem rawText_length (bs : List Byte) : (rawText bs).length = 2 * bs.length := by
  induction bs with
  | nil => rfl
  | cons b bs ih => simp [rawText, ih]; omega

end Sys2Proof.Machine
end

