-- ==== Sys2Proof/Tests/Slice0.lean ====
section
/-! SUPPORT. The model's own tests, from the worked examples and vectors of spec/95_test_vectors.md (named at each), and
a witness for the hypotheses of each statement. -/

namespace Sys2Proof.Tests

open Sys2Proof Sys2Proof.Machine

/-! ### Helpers -/

/-- The state after `RESET(bytes, 0)` under the given parameters. -/
def loaded (p : Params) (bs : List Byte) : State := State.afterReset p bs 0

/-- The state after `RESET(bytes, 0)` under the default parameters. -/
def fresh (bs : List Byte) : State := loaded Params.default bs

def refuseReg : Params := ⟨.refuse, .general⟩
def refuseDisp : Params := ⟨.ignore, .refuseUndecided⟩

/-- The next state, if there is one. -/
def nextOf : Outcome → Option State
  | .next t => some t
  | .fault _ => none
  | .refused _ => none

/-- STATUS, CURSOR, the four fault registers and REFUSE_REASON. -/
structure Registers where
  status : Status
  cursor : Nat
  faultCode : FaultCode
  faultOffset : Nat
  faultByte : Byte
  faultAvail : Nat
  refuseReason : RefuseReason
deriving DecidableEq, Repr

def registers (s : State) : Registers :=
  ⟨s.status, s.cursor, s.faultCode, s.faultOffset, s.faultByte, s.faultAvail, s.refuseReason⟩

/-- Those registers after one `STEP`. -/
def stepRegisters (s : State) : Option Registers :=
  (nextOf (step s)).map registers

/-- The texts of the records after one `STEP`, with offsets and lengths. -/
def stepTexts (s : State) : Option (List (Nat × Nat × Text)) :=
  (nextOf (step s)).map (fun t => t.out.map (fun r => (r.offset, r.length, Record.text r)))

/-! ### WellFormed refuses each ill-formed operand (30_encoding.md R68, R71) -/

theorem test_wf_refuses_bp_without_displacement : (Instr.movR16Rm16 0 (.noDisp .bp)).wf = false := by decide
theorem test_wf_refuses_direct_without_address : (Instr.movRm8R8 0 (.noDisp .direct)).wf = false := by decide
theorem test_wf_refuses_direct_with_disp8 : (Instr.movRm8Imm8 0 (.disp8 .direct 1) 2).wf = false := by decide
theorem test_wf_refuses_direct_with_disp16 : (Instr.movRm16Imm16 0 (.disp16 .direct 1) 2).wf = false := by decide
theorem test_wf_takes_bp_with_displacement : (Instr.movR16Rm16 0 (.disp8 .bp 0)).wf = true := by decide

/-! ### Decoding words written out from the encodings: `| mod | reg | rm |`, low byte first -/

/-- 95 section 2.1: 0xD8 is 11 011 000, 0x4E is 01 001 110. -/
theorem test_modrm_fields :
    (modOf 0b11011000, regOf 0b11011000, rmOf 0b11011000) = (3, 3, 0) ∧
      (modOf 0b01001110, regOf 0b01001110, rmOf 0b01001110) = (1, 1, 6) := by decide

/-- R101: 1000 1000, then 10 101 001 and a displacement word: MOV [bx+di+d16], ch. -/
theorem test_decode_88 : decode [0b10001000, 0b10101001, 0x34, 0x12] = .ok (.movRm8R8 5 (.disp16 .bxDi 0x1234), []) := by
  rfl

/-- R102, S1: 1000 1001, then 11 011 000: MOV ax, bx. -/
theorem test_decode_89 : decode [0b10001001, 0b11011000] = .ok (.movRm16R16 3 (.reg 0), []) := by rfl

/-- R103: 1000 1010, then 00 100 110 and an address: MOV ah, [1234]. -/
theorem test_decode_8A : decode [0b10001010, 0b00100110, 0x34, 0x12] = .ok (.movR8Rm8 4 (.direct 0x1234), []) := by rfl

/-- R104, S4: 1000 1011, then 01 000 110 and a displacement byte: MOV ax, [bp+02]. -/
theorem test_decode_8B : decode [0b10001011, 0b01000110, 0x02] = .ok (.movR16Rm16 0 (.disp8 .bp 0x02), []) := by rfl

/-- R107: 1011 0 100, then the immediate byte: MOV ah, 4c. -/
theorem test_decode_B4 : decode [0b10110100, 0x4C] = .ok (.movR8Imm8 4 0x4C, []) := by rfl

/-- R108: 1011 1 111, then the immediate word: MOV di, abcd, with the byte after it left. -/
theorem test_decode_BF : decode [0b10111111, 0xCD, 0xAB, 0x90] = .ok (.movR16Imm16 7 0xABCD, [0x90]) := by rfl

/-- R113, S3: 1100 0110, then 00 000 110, an address and an immediate: MOV byte [0005], 2a. -/
theorem test_decode_C6 :
    decode [0b11000110, 0b00000110, 0x05, 0x00, 0x2A] = .ok (.movRm8Imm8 0 (.direct 0x0005) 0x2A, []) := by rfl

/-- R114: 1100 0111, then 10 000 110, a displacement word and an immediate word: MOV word [bp-0002], 1234. -/
theorem test_decode_C7 : decode [0b11000111, 0b10000110, 0xFE, 0xFF, 0x34, 0x12] =
    .ok (.movRm16Imm16 0 (.disp16 .bp 0xFFFE) 0x1234, []) := by rfl

/-- 95 section 2.9: bytes next to the admitted ranges are unassigned. -/
theorem test_decode_unassigned :
    ([0x00, 0x87, 0x8C, 0x8E, 0xA0, 0xAF, 0xC0, 0xC5, 0xC8, 0xFF, 0x26, 0xF0] : List Byte).map dispatch =
      List.replicate 12 none := by decide

/-- R80: 22 of the 256 first bytes are admitted. -/
theorem test_admitted_count :
    ((List.range 256).filter (fun b => (dispatch (BitVec.ofNat 8 b)).isSome)).length = 22 := by decide

/-- 95 section 2.8: a truncated displacement and a truncated immediate; a C6 keeps its ModRM byte for the refusals. -/
theorem test_decode_truncated :
    decode [0x8B, 0x86, 0x00] = .error (.truncated none) ∧ decode [0xC6, 0x46, 0x02] = .error (.truncated (some 0x46)) ∧
      decode [0xC6] = .error (.truncated none) := ⟨rfl, rfl, rfl⟩

/-- The first word of each row of spec/opcode_table.json, every later bit 0. -/
theorem test_table_words :
    [0x88, 0x89, 0x8A, 0x8B, 0xB0, 0xB8, 0xC6, 0xC7].map (decodeTableWord 8) =
      [some (.movRm8R8 0 (.noDisp .bxSi)), some (.movRm16R16 0 (.noDisp .bxSi)), some (.movR8Rm8 0 (.noDisp .bxSi)),
        some (.movR16Rm16 0 (.noDisp .bxSi)), some (.movR8Imm8 0 0), some (.movR16Imm16 0 0),
        some (.movRm8Imm8 0 (.noDisp .bxSi) 0), some (.movRm16Imm16 0 (.noDisp .bxSi) 0)] := by decide

/-- A table word with an operand in its second byte: bits 15..8 are the second byte. -/
theorem test_table_word_order : decodeTableWord 16 0xD889 = some (.movRm16R16 3 (.reg 0)) := by decide

/-- The instruction put where the next step fetches is the one that runs, first after reset. -/
theorem test_with_fetch_word_runs :
    [0x88, 0x89, 0x8A, 0x8B, 0xB0, 0xB8, 0xC6, 0xC7].map
        (fun w => stepTexts (State.reset.withFetchWord 8 w)) =
      [some [(0, 2, "mov [bx+si],al".toList)], some [(0, 2, "mov [bx+si],ax".toList)],
        some [(0, 2, "mov al,[bx+si]".toList)], some [(0, 2, "mov ax,[bx+si]".toList)],
        some [(0, 2, "mov al,00".toList)], some [(0, 3, "mov ax,0000".toList)],
        some [(0, 3, "mov byte [bx+si],00".toList)], some [(0, 4, "mov word [bx+si],0000".toList)]] := by decide

/-! ### One step of each instruction: text, offset, length (95 sections 1, 2.4-2.6) -/

theorem test_step_88 : stepTexts (fresh [0x88, 0x47, 0xFF]) = some [(0, 3, "mov [bx-01],al".toList)] := by decide
theorem test_step_89 : stepTexts (fresh [0x89, 0xD8]) = some [(0, 2, "mov ax,bx".toList)] := by decide
theorem test_step_8A : stepTexts (fresh [0x8A, 0x26, 0x34, 0x12]) = some [(0, 4, "mov ah,[1234]".toList)] := by decide
theorem test_step_8B : stepTexts (fresh [0x8B, 0x86, 0x00, 0x80]) = some [(0, 4, "mov ax,[bp-8000]".toList)] := by decide
theorem test_step_B0 : stepTexts (fresh [0xB0, 0xFF]) = some [(0, 2, "mov al,ff".toList)] := by decide
theorem test_step_B8 : stepTexts (fresh [0xB8, 0x34, 0x12]) = some [(0, 3, "mov ax,1234".toList)] := by decide
theorem test_step_C6 : stepTexts (fresh [0xC6, 0x06, 0x05, 0x00, 0x2A]) = some [(0, 5, "mov byte [0005],2a".toList)] := by
  decide
theorem test_step_C6_register : stepTexts (fresh [0xC6, 0xF8, 0x00]) = some [(0, 3, "mov al,00".toList)] := by decide
theorem test_step_C7 :
    stepTexts (fresh [0xC7, 0x47, 0x80, 0x01, 0x00]) = some [(0, 5, "mov word [bx-80],0001".toList)] := by decide

/-- S1: the raw bytes are the stream's, spelled without separators (R99); a whole stream halts in the same step (R29). -/
theorem test_step_record_and_halt :
    (nextOf (step (fresh [0x89, 0xD8]))).map (fun t => (t.status, t.cursor, t.out.map (fun r => rawText r.raw))) =
      some (.halted, 2, ["89d8".toList]) := by decide

/-- R99 with the values D11 suggests: four offset digits, and a line of the form `oooo: <raw> <text>`. -/
theorem test_line_of_suggested_format :
    Record.line 4 (fun o r t => o ++ ": ".toList ++ r ++ ' ' :: t)
        ⟨0x1F, 5, [0xC6, 0x06, 0x05, 0x00, 0x2A], .mov, [.mem .direct (.addr 0x0005) .byte, .imm8 0x2A]⟩ =
      "001f: c60605002a mov byte [0005],2a".toList := by decide

/-- R105(c): `89 D8` and `8B C3` are spelled alike; their records differ. -/
theorem test_text_does_not_determine_bytes :
    stepTexts (fresh [0x89, 0xD8]) = stepTexts (fresh [0x8B, 0xC3]) ∧
      (nextOf (step (fresh [0x89, 0xD8]))).map State.out ≠ (nextOf (step (fresh [0x8B, 0xC3]))).map State.out := by
  decide

/-- 95 section 2.2, one ModRM byte for each base at mod = 1. -/
theorem test_bases :
    [0x40, 0x41, 0x42, 0x43, 0x44, 0x45, 0x46, 0x47].map (fun m => stepTexts (fresh [0x8B, m, 0x85])) =
      ["mov ax,[bx+si-7b]", "mov ax,[bx+di-7b]", "mov ax,[bp+si-7b]", "mov ax,[bp+di-7b]", "mov ax,[si-7b]",
        "mov ax,[di-7b]", "mov ax,[bp-7b]", "mov ax,[bx-7b]"].map (fun t => some [(0, 3, t.toList)]) := by decide

/-! ### Faults, refusals and their order (95 sections 2.7-2.10) -/

theorem test_unassigned_at_last_offset :
    stepRegisters (fresh [0x90]) = some ⟨.faulted, 0, .unassignedOpcode, 0, 0x90, 1, .none⟩ := by decide

theorem test_truncated_largest_avail :
    stepRegisters (fresh [0xC7, 0x86, 0x00, 0x01, 0x34]) = some ⟨.faulted, 0, .truncatedInstruction, 0, 0xC7, 5, .none⟩ := by
  decide

/-- P7: the ModRM byte is there, the displacement byte is not. -/
theorem test_truncated_displacement :
    stepRegisters (fresh [0x8B, 0x46]) = some ⟨.faulted, 0, .truncatedInstruction, 0, 0x8B, 2, .none⟩ := by decide

theorem test_modrm_bound_before_refusal :
    stepRegisters (loaded refuseReg [0xC6]) = some ⟨.faulted, 0, .truncatedInstruction, 0, 0xC6, 1, .none⟩ := by decide

theorem test_refusal_before_length_bound :
    stepRegisters (loaded refuseReg [0xC6, 0x4E]) = some ⟨.refused, 0, .none, 0, 0x00, 0, .regField⟩ ∧
      stepRegisters (loaded refuseDisp [0xC6, 0x46]) = some ⟨.refused, 0, .none, 0, 0x00, 0, .dispUndecided⟩ := by decide

theorem test_reg_field_before_displacement_rule :
    stepRegisters (loaded ⟨.refuse, .refuseUndecided⟩ [0xC6, 0x4E, 0x02, 0x07]) =
      some ⟨.refused, 0, .none, 0, 0x00, 0, .regField⟩ := by decide

/-- The settled case passes the refusal, then fails the length bound. -/
theorem test_settled_case_is_not_refused :
    stepRegisters (loaded refuseDisp [0xC6, 0x06, 0x05]) = some ⟨.faulted, 0, .truncatedInstruction, 0, 0xC6, 3, .none⟩ ∧
      stepTexts (loaded ⟨.refuse, .refuseUndecided⟩ [0xC7, 0x06, 0x05, 0x00, 0x34, 0x12]) =
        some [(0, 6, "mov word [0005],1234".toList)] := by decide

/-! ### RESET and the terminal states (95 section 2.11) -/

theorem test_reset_empty : registers (fresh []) = ⟨.halted, 0, .none, 0, 0x00, 0, .none⟩ := by decide
theorem test_reset_at_end :
    registers (State.afterReset Params.default [0x89, 0xD8] 2) = ⟨.halted, 2, .none, 0, 0x00, 0, .none⟩ := by decide
theorem test_reset_past_end :
    registers (State.afterReset Params.default [0x89, 0xD8] 3) = ⟨.faulted, 2, .badStartOffset, 3, 0x00, 0, .none⟩ := by
  decide
theorem test_reset_ready : registers (fresh [0x89, 0xD8]) = ⟨.ready, 0, .none, 0, 0x00, 0, .none⟩ := by decide

theorem test_step_after_halt :
    (nextOf (step (fresh [0x89, 0xD8]))).bind (fun t => nextOf (step t)) = nextOf (step (fresh [0x89, 0xD8])) := by decide

/-- P4: a start inside an instruction decodes another stream. -/
theorem test_boundary_hazard :
    stepRegisters (State.afterReset Params.default [0xB8, 0x34, 0x12, 0x89, 0xD8] 1) =
      some ⟨.faulted, 1, .unassignedOpcode, 1, 0x34, 4, .none⟩ := by decide

/-- R22, R116, R126, R36: the numeric codes, and which statuses end a run. -/
theorem test_register_codes :
    [Status.ready, .halted, .faulted, .refused].map Status.code = [0, 1, 2, 3] ∧
      [FaultCode.none, .unassignedOpcode, .truncatedInstruction, .badStartOffset].map FaultCode.code = [0, 1, 2, 3] ∧
      [RefuseReason.none, .regField, .dispUndecided].map RefuseReason.code = [0, 1, 2] ∧
      [Status.ready, .halted, .faulted, .refused].map Status.endedWell = [false, true, false, false] := by decide

/-- The stop of the model: a READY state whose cursor is past its stream, which no run reaches. -/
theorem test_read_outside_stream : step { fresh [] with status := .ready } = .fault (.readOutsideStream 0) := by rfl

/-! ### The loader interface (95 P8) -/

/-- The file of P8. -/
def fileP8 : List Byte :=
  [0x01, 0x03, 0x00, 0x00, 0x20, 0x00, 0x00, 0x00, 0x05, 0x00, 0x00, 0x00, 0x02, 0x00, 0x00, 0x00] ++
  List.replicate 16 0x00 ++ [0xB8, 0x34, 0x12, 0x89, 0xD8] ++ [0xAA, 0x55]

/-- The state a file boots to, if it loads. -/
def bootOf (file : List Byte) : Option State :=
  match boot Params.default file 0 with
  | .ok s => some s
  | .error _ => none

/-- Why a file does not load. -/
def loadErrorOf (file : List Byte) : Option LoadError :=
  match load file with
  | .ok _ => none
  | .error e => some e

theorem test_boot_P8 : bootOf fileP8 = some (fresh [0xB8, 0x34, 0x12, 0x89, 0xD8]) := by decide
theorem test_wrong_magic : loadErrorOf (0x01 :: 0x07 :: fileP8.drop 2) = some .badMagic := by decide
theorem test_short_file : loadErrorOf (fileP8.take 0x26) = some .shortRead := by decide
theorem test_short_header : loadErrorOf (fileP8.set 4 0x1F) = some .badHeaderLen := by decide
theorem test_negative_size : loadErrorOf (fileP8.set 15 0x80) = some .negativeSize := by decide

/-! ### A concrete state that meets the invariant -/

/-- The state the witnesses stand on. -/
def sample : State := fresh [0x89, 0xD8]

theorem sample_inv : sample.Inv where
  stream_complete := by decide
  length_bounded := by decide
  cursor_in_range := by decide
  ready_inside := by decide
  halted_at_end := by decide
  faulted_iff := by decide
  refused_iff := by decide
  fault_registers := ⟨rfl, rfl, rfl⟩
  records := by simp [sample, fresh, loaded]

/-! ### Witnesses: the hypotheses of each statement can be met together, clause by clause -/

theorem witness_RegisterNameTables : regName 7 .w16 = regName 7 .w16 ∧ regName 0 .w8 = regName 0 .w8 := ⟨rfl, rfl⟩

theorem witness_EffectiveAddressBaseTable : (0 : ModField) ≠ 3 ∧ (2 : ModField) ≠ 3 := by decide

theorem witness_ResolverForms : (0 : RegCode) ≠ 6 ∧ (5 : RegCode) ≠ 6 ∧ (7 : RegCode) ≠ 6 := by decide

theorem witness_ResolverTakesDispLenBytes :
    dispLen 2 7 ≤ ([0x34, 0x12] : List Byte).length ∧ ([0x34] : List Byte).length < dispLen 0 6 := by decide

theorem witness_DispatchTableAdmitsTwentyTwoBytes :
    0xB0 ≤ (0xB7 : Byte).toNat ∧ (0xB7 : Byte).toNat ≤ 0xB7 ∧ 0xB8 ≤ (0xB8 : Byte).toNat ∧ (0xB8 : Byte).toNat ≤ 0xBF ∧
      (0x87 : Byte).toNat ≤ 0x87 ∧ 0x8C ≤ (0xAF : Byte).toNat ∧ (0xAF : Byte).toNat ≤ 0xAF ∧
      0xC0 ≤ (0xC5 : Byte).toNat ∧ (0xC5 : Byte).toNat ≤ 0xC5 ∧ 0xC8 ≤ (0xC8 : Byte).toNat := by decide

theorem witness_OpcodeBitsAgreeWithDescriptors :
    (dispatch 0x8A).map Descriptor.cls = some .rmReg ∧ (dispatch 0xBF).map Descriptor.cls = some .immReg ∧
      (dispatch 0xC7).map Descriptor.cls = some .immRm := by decide

theorem witness_DecodeOfEncode : (Instr.movRm16Imm16 7 (.disp16 .bp 0xFFFE) 0x1234).wf = true := by decide

theorem witness_EncodeOfDecode : decode [0x8B, 0x46, 0x02, 0x90] = .ok (.movR16Rm16 0 (.disp8 .bp 0x02), [0x90]) := by rfl

theorem witness_DecodedLengthFollowsDescriptor :
    dispatch 0xC6 = some ⟨.immRm, .w8, false, true, .mov⟩ ∧
      decode [0xC6, 0x06, 0x05, 0x00, 0x2A, 0x90] = .ok (.movRm8Imm8 0 (.direct 0x0005) 0x2A, [0x90]) := ⟨by decide, rfl⟩

theorem witness_OperandsAreRecordOperands :
    (Instr.movRm8Imm8 0 (.disp8 .bp 0xFE) 7).wf = true ∧
      (Instr.movRm8Imm8 0 (.disp8 .bp 0xFE) 7).operands = [.mem .bp (.d8 0xFFFE) .byte, .imm8 7] ∧
      (Instr.movR16Rm16 0 (.direct 5)).operands = [.reg .w16 0, .mem .direct (.addr 5) .none] := by decide

theorem witness_StepRunsDecodedInstruction :
    sample.StreamComplete ∧ sample.status = .ready ∧ sample.slice sample.cursor 2 = some [0x89, 0xD8] ∧
      decode [0x89, 0xD8] = .ok (.movRm16R16 3 (.reg 0), []) := ⟨by decide, by decide, by decide, rfl⟩

theorem witness_StepAppliesDecodeAt :
    sample.StreamComplete ∧ sample.status = .ready ∧ sample.cursor < sample.n := by decide

/-- No ModRM byte; a displacement byte missing; exactly enough bytes. -/
theorem witness_RmRegFamilyStep :
    ((fresh [0x88]).StreamComplete ∧ (fresh [0x88]).status = .ready ∧
      (fresh [0x88]).memRead (fresh [0x88]).cursor = some 0x88 ∧ (fresh [0x88]).n < (fresh [0x88]).cursor + 2) ∧
    ((fresh [0x8B, 0x46]).memRead 1 = some 0x46 ∧ (fresh [0x8B, 0x46]).n < 0 + (2 + dispLen (modOf 0x46) (rmOf 0x46))) ∧
    (sample.memRead 1 = some 0xD8 ∧ 0 + (2 + dispLen (modOf 0xD8) (rmOf 0xD8)) ≤ sample.n) := by decide

theorem witness_ImmRegFamilyStep :
    ((fresh [0xB8, 0x34]).StreamComplete ∧ (fresh [0xB8, 0x34]).status = .ready ∧
      (fresh [0xB8, 0x34]).memRead 0 = some 0xB8 ∧ (fresh [0xB8, 0x34]).n < 0 + (1 + immLen .w16)) ∧
    ((fresh [0xB7, 0x34]).memRead 0 = some 0xB7 ∧ 0 + (1 + immLen .w8) ≤ (fresh [0xB7, 0x34]).n) := by decide

/-- A missing ModRM byte; each refusal; an admitted form truncated, and one that just fits. -/
theorem witness_ImmRmFamilyStep :
    ((fresh [0xC6]).StreamComplete ∧ (fresh [0xC6]).status = .ready ∧ (fresh [0xC6]).memRead 0 = some 0xC6 ∧
      (fresh [0xC6]).n < 0 + 2) ∧
    ((loaded refuseReg [0xC6, 0x4E]).StreamComplete ∧ (loaded refuseReg [0xC6, 0x4E]).memRead 1 = some 0x4E ∧
      (loaded refuseReg [0xC6, 0x4E]).params.regPolicy = .refuse ∧ regOf 0x4E ≠ 0) ∧
    ((loaded refuseDisp [0xC7, 0xC6]).StreamComplete ∧ (loaded refuseDisp [0xC7, 0xC6]).memRead 1 = some 0xC6 ∧
      (loaded refuseDisp [0xC7, 0xC6]).params.regPolicy = .ignore ∧
      (loaded refuseDisp [0xC7, 0xC6]).params.dispRule = .refuseUndecided ∧ ¬ (modOf 0xC6 = 0 ∧ rmOf 0xC6 = 6)) ∧
    ((fresh [0xC6, 0xC0]).memRead 1 = some 0xC0 ∧ (fresh [0xC6, 0xC0]).params.dispRule = .general ∧
      (fresh [0xC6, 0xC0]).n < 0 + (2 + dispLen (modOf 0xC0) (rmOf 0xC0) + immLen .w8)) ∧
    ((fresh [0xC6, 0xC0, 1]).memRead 1 = some 0xC0 ∧
      0 + (2 + dispLen (modOf 0xC0) (rmOf 0xC0) + immLen .w8) ≤ (fresh [0xC6, 0xC0, 1]).n) := by decide

theorem witness_UnassignedOpcodeFaults :
    (fresh [0x90]).status = .ready ∧ (fresh [0x90]).memRead 0 = some 0x90 ∧ dispatch 0x90 = none := by decide

theorem witness_FaultingStepWritesFaultRegistersOnly :
    (fresh [0x90]).status = .ready ∧ (nextOf (step (fresh [0x90]))).map State.status = some .faulted := by decide

theorem witness_RefusingStepWritesReasonOnly :
    (loaded refuseReg [0xC6, 0x4E]).status = .ready ∧
      (nextOf (step (loaded refuseReg [0xC6, 0x4E]))).map State.status = some .refused := by decide

theorem witness_EmittingStepAppendsOneRecord :
    ∃ t, nextOf (step sample) = some t ∧ t.out ≠ sample.out := ⟨_, rfl, by decide⟩

theorem witness_ChecksRunInOrder :
    ((fresh [0x90]).StreamComplete ∧ (fresh [0x90]).status = .ready ∧ dispatch 0x90 = none) ∧
    ((loaded refuseReg [0xC6]).memRead 0 = some 0xC6 ∧ (loaded refuseReg [0xC6]).n = 0 + 1) ∧
    ((loaded refuseReg [0xC6, 0x4E]).memRead 1 = some 0x4E ∧ refuseReg.regPolicy = .refuse ∧ regOf 0x4E ≠ 0) ∧
    ((loaded refuseDisp [0xC6, 0x46]).memRead 1 = some 0x46 ∧ refuseDisp.regPolicy = .ignore ∧
      refuseDisp.dispRule = .refuseUndecided ∧ ¬ (modOf 0x46 = 0 ∧ rmOf 0x46 = 6)) := by decide

theorem witness_DefaultParametersNeverRefuse :
    sample.params = Params.default ∧ sample.status ≠ .refused ∧ (nextOf (step sample)).isSome = true := by decide

theorem witness_TerminalStatesIgnoreStep :
    (fresh []).status.ended = true ∧ (State.afterReset Params.default [] 1).status.ended = true := by decide

theorem witness_StreamIsReadOnly :
    (nextOf (step sample)).isSome = true ∧
      (nextOf (sample.command (.reset [0x90] 0))).map State.body ≠ some sample.body := by decide

theorem witness_CursorAdvancesByRecordLengthOnly :
    (nextOf (step sample)).map State.cursor = some 2 ∧ (nextOf (step (fresh [0x90]))).map State.cursor = some 0 := by decide

/-- A state that differs from the sample in what no next instruction may see. -/
theorem witness_NoHiddenStateBetweenInstructions :
    let t := { sample with faultByte := 0x55, out := [⟨7, 2, [], .mov, []⟩] }
    t.body = sample.body ∧ t.n = sample.n ∧ t.cursor = sample.cursor ∧ t.status = sample.status ∧
      t.params = sample.params ∧ sample.status = .ready ∧ (nextOf (step sample)).isSome = true := by decide

theorem witness_RecordDependsOnItsOwnBytes :
    let t := fresh [0x89, 0xD8, 0x90]
    let rec' : Record := ⟨0, 2, [0x89, 0xD8], .mov, [.reg .w16 0, .reg .w16 3]⟩
    sample.StreamComplete ∧ t.StreamComplete ∧ sample.status = .ready ∧ t.status = .ready ∧ t.cursor = sample.cursor ∧
      t.params = sample.params ∧ nextOf (step sample) = some (sample.emit rec') ∧
      t.slice sample.cursor rec'.length = sample.slice sample.cursor rec'.length := by decide

theorem witness_MovToRmFromRegCompletes :
    sample.StreamComplete ∧ sample.cursor + (2 + (RmOperand.reg 0).dispLength) ≤ sample.n := by decide

theorem witness_MovToRegFromRmCompletes :
    (fresh [0x8B, 0x06, 5, 0]).StreamComplete ∧ 0 + (2 + (RmOperand.direct 5).dispLength) ≤ (fresh [0x8B, 0x06, 5, 0]).n := by
  decide

theorem witness_MovByteImmediateToRegCompletes :
    (fresh [0xB4, 0x4C]).StreamComplete ∧ (fresh [0xB4, 0x4C]).cursor + 2 ≤ (fresh [0xB4, 0x4C]).n := by decide

theorem witness_MovWordImmediateToRegCompletes :
    (fresh [0xB8, 0x34, 0x12]).StreamComplete ∧ (fresh [0xB8, 0x34, 0x12]).cursor + 3 ≤ (fresh [0xB8, 0x34, 0x12]).n := by
  decide

/-- Both parameters at their non-default values, the settled case; and the default, a displacement form. -/
theorem witness_MovImmediateToRmCompletes :
    (ImmRmAdmitted ⟨.refuse, .refuseUndecided⟩ 0 (.direct 5) ∧
      (loaded ⟨.refuse, .refuseUndecided⟩ [0xC6, 0x06, 5, 0, 1]).StreamComplete ∧
      0 + (3 + (RmOperand.direct 5).dispLength) ≤ (loaded ⟨.refuse, .refuseUndecided⟩ [0xC6, 0x06, 5, 0, 1]).n) ∧
    (ImmRmAdmitted Params.default 7 (.disp8 .bx 0x80) ∧
      0 + (4 + (RmOperand.disp8 .bx 0x80).dispLength) ≤ (fresh [0xC7, 0x7F, 0x80, 1, 0]).n) := by
  unfold ImmRmAdmitted; decide

theorem witness_MovImmediateToRmRefused :
    ((loaded refuseReg []).params.regPolicy = .refuse ∧ (1 : RegCode) ≠ 0) ∧
    ((loaded refuseDisp []).params.regPolicy = .ignore ∧ (loaded refuseDisp []).params.dispRule = .refuseUndecided ∧
      (∀ a, RmOperand.reg 6 ≠ .direct a) ∧ (RmOperand.reg 6).wf = true) :=
  ⟨by decide, by decide, by decide, fun _ h => RmOperand.noConfusion h, by decide⟩

theorem witness_TruncatedInstructionFaults :
    (fresh [0xC6, 0xC0]).memRead (fresh [0xC6, 0xC0]).cursor = some 0xC6 ∧
      (fresh [0xC6, 0xC0]).n < (fresh [0xC6, 0xC0]).cursor + (Instr.movRm8Imm8 0 (.reg 0) 0).length ∧
      ImmRmAdmitted (fresh [0xC6, 0xC0]).params 0 (.reg 0) := by
  unfold ImmRmAdmitted; decide

theorem witness_ExecFrame : (nextOf (exec (.movRm16R16 3 (.reg 0)) sample)).isSome = true := by decide

theorem witness_ParametersAffectImmRmOnly :
    (∀ f rm v, Instr.movRm16R16 3 (.reg 0) ≠ .movRm8Imm8 f rm v) ∧
      (∀ f rm v, Instr.movRm16R16 3 (.reg 0) ≠ .movRm16Imm16 f rm v) ∧
      (nextOf (exec (.movRm16R16 3 (.reg 0)) sample)).isSome = true :=
  ⟨fun _ _ _ h => Instr.noConfusion h, fun _ _ _ h => Instr.noConfusion h, by decide⟩

/-- START inside the stream, at its end and past it. -/
theorem witness_ResetSetsEveryRegister :
    0 < ([0x90] : List Byte).length ∧ 1 = ([0x90] : List Byte).length ∧ ([0x90] : List Byte).length < 2 := by decide

theorem witness_ResetEstablishesInvariant :
    ([0x90] : List Byte).length ≤ 2 ^ 31 - 1 ∧ (nextOf (sample.command (.reset [0x90] 2))).isSome = true := by decide

theorem witness_StepKeepsInvariant : sample.Inv ∧ (nextOf (step sample)).isSome = true := ⟨sample_inv, by decide⟩

theorem witness_StepNeverReadsOutsideStream : sample.Inv := sample_inv

theorem witness_InvariantStreamIsCanonical : sample.Inv := sample_inv

theorem witness_StepKeepsRecordsContiguous :
    OutFrom 0 sample.out sample.cursor ∧ (nextOf (step sample)).isSome = true := ⟨rfl, by decide⟩

/-- A run that halts, and one that faults. -/
theorem witness_RunOffsetsAreCumulative :
    0 ≤ ([0x89, 0xD8] : List Byte).length ∧ (nextOf (steps 1 sample)).map State.status = some .halted ∧
      (nextOf (steps 2 (fresh [0xB0, 0x41, 0x90]))).map State.status = some .faulted := by decide

theorem witness_RunLeavesReadyWithinBound : sample.Inv ∧ sample.status = .ready := ⟨sample_inv, by decide⟩

theorem witness_WorkedExampleTexts :
    (([0x89, 0xD8] : List Byte), "mov ax,bx".toList) ∈ [(([0x89, 0xD8] : List Byte), "mov ax,bx".toList)] := by decide

theorem witness_OperandTextDeterminesOperand :
    Operand.wf (.mem .bp (.d8 0xFFFE) .byte) = true ∧
      Operand.text (.mem .bp (.d8 0xFFFE) .byte) = Operand.text (.mem .bp (.d8 0xFFFE) .byte) := ⟨by decide, rfl⟩

/-- The lowest and the highest offset of a width, and the digit places at both ends. -/
theorem witness_OffsetAndRawSpelling :
    (0 < 16 ^ 4 ∧ 0 < 4) ∧ (16 ^ 4 - 1 < 16 ^ 4 ∧ 3 < 4) ∧ offsetText 4 0 = offsetText 4 0 ∧
      ([0x89, 0xD8] : List Byte)[1]? = some 0xD8 ∧ rawText [0x89] = rawText [0x89] := by decide

theorem witness_WrongMagicIsNotLoaded :
    (fileP8.set 1 0x07).take 2 ≠ [0x01, 0x03] ∧ ([0x01] : List Byte).take 2 ≠ [0x01, 0x03] := by decide

/-- A header of 0x20 bytes, and one of 0x30. -/
theorem witness_RelocationFieldsReadOrForcedToZero :
    loadErrorOf fileP8 = none ∧
      loadErrorOf ((fileP8.set 4 0x30).take 32 ++ List.replicate 16 0x11 ++ fileP8.drop 32) = none := by decide

theorem witness_SegmentsAreTheDeclaredSlices : loadErrorOf fileP8 = none := by decide

theorem witness_LoadedImageIsComplete : loadErrorOf fileP8 = none := by decide

/-- A body with a byte to begin at, and a file whose `entry` is not zero. -/
theorem witness_StartDefaultsToFirstByte :
    ([0x90] : List Byte) ≠ [] ∧
      (match boot Params.default (fileP8.set 20 0x03) with | .ok s => s.cursor | .error _ => 1) = 0 := by decide

theorem witness_BootEstablishesInvariant : (bootOf fileP8).isSome = true := by decide

end Sys2Proof.Tests
end

section
/-! SUPPORT. Proofs of the statements of 10_state.md: what a faulting step writes (R30), and that a step depends on the
stream, the cursor and the parameters alone (R27). -/

namespace Sys2Proof.Machine

/-! ### A step that emits a record ends READY or HALTED (10_state.md R29) -/

theorem emit_status_ne_faulted (s : State) (rec : Record) : (s.emit rec).status ≠ .faulted := by
  rw [emit_status]
  split <;> decide

theorem emit_status_ne_refused (s : State) (rec : Record) : (s.emit rec).status ≠ .refused := by
  rw [emit_status]
  split <;> decide

/-! ### A faulting step (10_state.md R30) -/

/-- Settles O22: of the outcomes of a READY step, the two faults alone end FAULTED, and both are taken at the cursor. -/
theorem faultingStepWritesFaultRegistersOnly : Obligations.FaultingStepWritesFaultRegistersOnly := by
  unfold Obligations.FaultingStepWritesFaultRegistersOnly
  intro s t hready hstep hfaulted
  rcases step_cases hstep with ⟨hnot, -⟩ | ⟨-, hemit | hunassigned | htruncated | hrefused⟩
  · exact absurd hready hnot
  · obtain ⟨i, rest, raw, -, -, -, rfl⟩ := hemit
    exact absurd hfaulted (emit_status_ne_faulted s _)
  · obtain ⟨b, hb, -, ht⟩ := hunassigned
    exact ⟨.unassignedOpcode, b, by decide, hb, ht⟩
  · obtain ⟨b, hb, -, -, ht⟩ := htruncated
    exact ⟨.truncatedInstruction, b, by decide, hb, ht⟩
  · obtain ⟨r, reg, mod, rm, -, rfl⟩ := hrefused
    cases hfaulted

/-! ### What a step may see (10_state.md R27)

`SameView s t` says that two states agree on everything a step may look at. A `StepEffect` names a step's work as data
that does not mention the state it is applied to; two outcomes are `SameEffect` where one such effect makes both. Each
operation of the model takes states of the same view to outcomes of the same effect. -/

/-- The states agree on the stream, the cursor and the parameters; OUT, STATUS, the fault registers and REFUSE_REASON
may differ. -/
structure SameView (s t : State) : Prop where
  body : t.body = s.body
  n : t.n = s.n
  cursor : t.cursor = s.cursor
  params : t.params = s.params

theorem SameView.memRead {s t : State} (h : SameView s t) (a : Nat) : t.memRead a = s.memRead a :=
  memRead_congr h.body h.n a

theorem SameView.slice {s t : State} (h : SameView s t) (a k : Nat) : t.slice a k = s.slice a k :=
  slice_congr h.body h.n a k

theorem SameView.fetchBytes {s t : State} (h : SameView s t) : t.fetchBytes = s.fetchBytes := by
  rw [State.fetchBytes, h.cursor]
  exact window_congr h.body h.n s.cursor maxInstrLength

/-- What a READY step does to the state: the three outcomes of 10_state.md R29 to R31. -/
inductive StepEffect where
  | record (rec : Record)
  | fault (k : FaultCode) (offset : Nat) (b : Byte) (avail : Nat)
  | refusal (r : RefuseReason)

/-- The state after the effect. -/
def StepEffect.apply : StepEffect → State → State
  | .record rec, s => s.emit rec
  | .fault k offset b avail, s => s.takeFault k offset b avail
  | .refusal r, s => s.takeRefusal r

/-- The records the effect appends to OUT. -/
def StepEffect.records : StepEffect → List Record
  | .record rec => [rec]
  | .fault _ _ _ _ => []
  | .refusal _ => []

theorem StepEffect.apply_out (e : StepEffect) (s : State) : (e.apply s).out = s.out ++ e.records := by
  cases e with
  | record rec => rfl
  | fault k offset b avail => exact (List.append_nil s.out).symm
  | refusal r => exact (List.append_nil s.out).symm

theorem StepEffect.apply_cursor_congr {s t : State} (h : SameView s t) (e : StepEffect) :
    (e.apply t).cursor = (e.apply s).cursor := by
  cases e with
  | record rec => exact congrArg (· + rec.length) h.cursor
  | fault k offset b avail => exact h.cursor
  | refusal r => exact h.cursor

theorem StepEffect.apply_status_congr {s t : State} (h : SameView s t) (e : StepEffect) :
    (e.apply t).status = (e.apply s).status := by
  cases e with
  | record rec => simp [StepEffect.apply, h.cursor, h.n]
  | fault k offset b avail => rfl
  | refusal r => rfl

/-- An effect that ends FAULTED is a fault, which writes all four fault registers. -/
theorem StepEffect.apply_faultRegisters_congr {s : State} (t : State) {e : StepEffect}
    (hf : (e.apply s).status = .faulted) :
    (e.apply t).faultCode = (e.apply s).faultCode ∧ (e.apply t).faultOffset = (e.apply s).faultOffset ∧
      (e.apply t).faultByte = (e.apply s).faultByte ∧ (e.apply t).faultAvail = (e.apply s).faultAvail := by
  cases e with
  | record rec => exact absurd hf (emit_status_ne_faulted s rec)
  | fault k offset b avail => exact ⟨rfl, rfl, rfl, rfl⟩
  | refusal r => cases hf

/-- An effect that ends REFUSED is a refusal, which writes REFUSE_REASON. -/
theorem StepEffect.apply_refuseReason_congr {s : State} (t : State) {e : StepEffect}
    (hr : (e.apply s).status = .refused) : (e.apply t).refuseReason = (e.apply s).refuseReason := by
  cases e with
  | record rec => exact absurd hr (emit_status_ne_refused s rec)
  | fault k offset b avail => cases hr
  | refusal r => rfl

/-! ### States of the same view step with the same effect -/

/-- Where the first outcome, of `s`, is a next state, one effect makes it and the second outcome, of `t`. -/
def SameEffect (s t : State) (os ot : Outcome) : Prop :=
  ∀ s', os = .next s' → ∃ e : StepEffect, s' = e.apply s ∧ ot = .next (e.apply t)

section

variable {s t : State} (h : SameView s t)
include h

theorem faultAtCursor_sameEffect (k : FaultCode) : SameEffect s t (s.faultAtCursor k) (t.faultAtCursor k) := by
  intro s' hs
  obtain ⟨b, hb, rfl⟩ := faultAtCursor_eq_next.mp hs
  refine ⟨.fault k s.cursor b (s.n - s.cursor), rfl, faultAtCursor_eq_next.mpr ⟨b, ?_, ?_⟩⟩
  · rw [h.memRead, h.cursor, hb]
  · rw [h.cursor, h.n]; rfl

theorem emitDecoded_sameEffect (i : Instr) : SameEffect s t (s.emitDecoded i) (t.emitDecoded i) := by
  intro s' hs
  rcases emitDecoded_eq_next.mp hs with ⟨hlt, hf⟩ | ⟨hle, raw, hraw, rfl⟩
  · obtain ⟨e, hse, hte⟩ := faultAtCursor_sameEffect h _ s' hf
    exact ⟨e, hse, emitDecoded_eq_next.mpr (.inl ⟨by rwa [h.n, h.cursor], hte⟩)⟩
  · refine ⟨.record ⟨s.cursor, i.length, raw, .mov, i.operands⟩, rfl,
      emitDecoded_eq_next.mpr (.inr ⟨by rwa [h.n, h.cursor], raw, ?_, ?_⟩)⟩
    · rw [h.slice, h.cursor, hraw]
    · rw [h.cursor]; rfl

theorem emitUnlessRefused_sameEffect (regField : RegCode) (rm : RmOperand) (i : Instr) :
    SameEffect s t (s.emitUnlessRefused regField rm i) (t.emitUnlessRefused regField rm i) := by
  intro s' hs
  rcases emitUnlessRefused_eq_next.mp hs with ⟨r, hr, rfl⟩ | ⟨hr, hi⟩
  · exact ⟨.refusal r, rfl, emitUnlessRefused_eq_next.mpr (.inl ⟨r, by rwa [h.params], rfl⟩)⟩
  · obtain ⟨e, hse, hte⟩ := emitDecoded_sameEffect h i s' hi
    exact ⟨e, hse, emitUnlessRefused_eq_next.mpr (.inr ⟨by rwa [h.params], hte⟩)⟩

theorem exec_sameEffect (i : Instr) : SameEffect s t (exec i s) (exec i t) := by
  cases i with
  | movRm8Imm8 regField rm imm => exact emitUnlessRefused_sameEffect h regField rm _
  | movRm16Imm16 regField rm imm => exact emitUnlessRefused_sameEffect h regField rm _
  | _ => exact emitDecoded_sameEffect h _

theorem truncatedAtCursor_sameEffect : SameEffect s t s.truncatedAtCursor t.truncatedAtCursor := by
  intro s' hs
  obtain ⟨hend, hf⟩ := truncatedAtCursor_eq_next.mp hs
  obtain ⟨e, hse, hte⟩ := faultAtCursor_sameEffect h _ s' hf
  exact ⟨e, hse, truncatedAtCursor_eq_next.mpr ⟨by rwa [h.n, h.cursor, h.fetchBytes], hte⟩⟩

theorem decodeFailed_sameEffect (err : DecodeError) : SameEffect s t (s.decodeFailed err) (t.decodeFailed err) := by
  cases err with
  | noByte => intro s' hs; cases hs
  | unassigned => exact faultAtCursor_sameEffect h _
  | truncated modRM =>
    cases modRM with
    | none => exact truncatedAtCursor_sameEffect h
    | some m =>
      simp only [State.decodeFailed, h.params]
      cases immRmRefusal s.params (regOf m) (modOf m) (rmOf m) with
      | none => exact truncatedAtCursor_sameEffect h
      | some r =>
        intro s' hs
        cases hs
        exact ⟨.refusal r, rfl, rfl⟩

theorem step_sameEffect (hs : s.status = .ready) (ht : t.status = .ready) :
    SameEffect s t (step s) (step t) := by
  simp only [step, hs, ht, h.fetchBytes]
  cases decode s.fetchBytes with
  | ok decoded => exact exec_sameEffect h decoded.1
  | error err => exact decodeFailed_sameEffect h err

end

/-- Settles O30: the two steps have one effect, and what it writes does not depend on what the registers and OUT held. -/
theorem noHiddenStateBetweenInstructions : Obligations.NoHiddenStateBetweenInstructions := by
  unfold Obligations.NoHiddenStateBetweenInstructions
  intro s t s' hbody hn hcursor hstatus hparams hready hstep
  have hview : SameView s t := ⟨hbody, hn, hcursor, hparams⟩
  obtain ⟨e, rfl, ht⟩ := step_sameEffect hview hready (hstatus.trans hready) s' hstep
  exact ⟨e.apply t, e.records, ht, e.apply_cursor_congr hview, e.apply_status_congr hview, e.apply_out s, e.apply_out t,
    StepEffect.apply_faultRegisters_congr t, StepEffect.apply_refuseReason_congr t⟩

end Sys2Proof.Machine
end

section
/-! SUPPORT. Proof of the statement of 20_memory.md: no step writes the stream, and `RESET` installs a new one (R40). -/

namespace Sys2Proof.Machine

/-- Every outcome of a step keeps the stream's two fields (20_memory.md R40). -/
theorem step_keeps_stream {s t : State} (h : step s = .next t) : t.body = s.body ∧ t.n = s.n := by
  rcases step_cases h with ⟨-, rfl⟩ | ⟨-, hemit | hunassigned | htruncated | hrefused⟩
  · exact ⟨rfl, rfl⟩
  · obtain ⟨i, rest, raw, -, -, -, rfl⟩ := hemit
    exact ⟨emit_body s _, emit_n s _⟩
  · obtain ⟨b, -, -, rfl⟩ := hunassigned
    exact ⟨takeFault_body s _ _ _ _, takeFault_n s _ _ _ _⟩
  · obtain ⟨b, -, -, -, rfl⟩ := htruncated
    exact ⟨takeFault_body s _ _ _ _, takeFault_n s _ _ _ _⟩
  · obtain ⟨r, reg, mod, rm, -, rfl⟩ := hrefused
    exact ⟨takeRefusal_body s _, takeRefusal_n s _⟩

/-- After `RESET` the readable bytes are those of the given body: past its end neither side has a value. -/
@[simp] theorem afterReset_memRead (p : Params) (body : List Byte) (start a : Nat) :
    (State.afterReset p body start).memRead a = body[a]? := by
  rw [State.memRead, afterReset_n, afterReset_body, Memory.read_ofBytes, if_pos (Nat.zero_le a), Nat.sub_zero]
  split
  · rfl
  · next hge => exact (List.getElem?_eq_none (Nat.not_lt.mp hge)).symm

/-- Settles O28: of the two commands, `STEP` keeps the stream, so one that changes it is `RESET`. -/
theorem streamIsReadOnly : Obligations.StreamIsReadOnly := by
  unfold Obligations.StreamIsReadOnly
  constructor
  · intro s t hstep
    obtain ⟨hbody, hn⟩ := step_keeps_stream hstep
    exact ⟨hbody, hn, memRead_congr hbody hn⟩
  · intro s t c hcommand hchanged
    cases c with
    | reset body start =>
      cases hcommand
      exact ⟨body, start, rfl, afterReset_n _ body start, afterReset_memRead _ body start⟩
    | step =>
      obtain ⟨hbody, hn⟩ := step_keeps_stream hcommand
      exact (hchanged.elim (· hbody) (· hn)).elim

end Sys2Proof.Machine
end

section
/-! SUPPORT. Proofs of the statements of 30_encoding.md about fields and byte order (R55 to R58), the two tables
(R65 to R68) and the addressing-mode resolver (R69 to R74). -/

namespace Sys2Proof

/-! ### ModRM fields as numbers (30_encoding.md R55) -/

theorem modOf_toNat (m : Byte) : (modOf m).toNat = m.toNat / 64 := by
  rw [modOf, BitVec.extractLsb'_toNat, Nat.shiftRight_eq_div_pow]
  exact Nat.mod_eq_of_lt (Nat.div_lt_of_lt_mul m.isLt)

theorem regOf_toNat (m : Byte) : (regOf m).toNat = m.toNat / 8 % 8 := by
  rw [regOf, BitVec.extractLsb'_toNat, Nat.shiftRight_eq_div_pow]

theorem rmOf_toNat (m : Byte) : (rmOf m).toNat = m.toNat % 8 := by
  rw [rmOf, BitVec.extractLsb'_toNat, Nat.shiftRight_zero]

/-- Settles O1: each field is a shift and a remainder, and above `mod` nothing is left to cut off. -/
theorem modRMFieldExtraction : Obligations.ModRMFieldExtraction := by
  unfold Obligations.ModRMFieldExtraction
  exact fun m => ⟨modOf_toNat m, regOf_toNat m, rmOf_toNat m⟩

/-! ### Sign extension and byte order as numbers (30_encoding.md R57, R58) -/

/-- Widening keeps the signed value. -/
theorem sext16_toInt (v : Byte) : (sext16 v).toInt = v.toInt :=
  BitVec.toInt_signExtend_of_le (by decide)

/-- The new high byte is all ones or all zeros, as the sign bit is. -/
theorem sext16_toNat (v : Byte) : (sext16 v).toNat = if v.msb then 0xFF00 + v.toNat else v.toNat := by
  rw [sext16, BitVec.toNat_signExtend, BitVec.toNat_setWidth_of_le (by decide)]
  cases v.msb with
  | false => rfl
  | true => exact Nat.add_comm _ _

theorem msb_iff_div_eq_one (v : Byte) : v.msb = true ↔ v.toNat / 128 = 1 := by
  have hv := v.isLt
  rw [BitVec.msb_eq_decide, decide_eq_true_iff]
  omega

/-- The byte's two's-complement value: the sign bit weighs -128, which is 256 less than its unsigned weight. -/
theorem byte_toInt (v : Byte) : v.toInt = (v.toNat : Int) - 256 * (v.toNat / 128 : Nat) := by
  have hv := v.isLt
  rw [BitVec.toInt_eq_toNat_cond]
  split <;> omega

/-- Settles O2: the signed value is the byte's own, and the pattern is split on the sign bit. -/
theorem signExtendByteToWord : Obligations.SignExtendByteToWord := by
  unfold Obligations.SignExtendByteToWord
  intro v
  constructor
  · rw [sext16_toInt, byte_toInt]
  · simp only [sext16_toNat, msb_iff_div_eq_one]

theorem le16_toNat (lo hi : Byte) : (le16 lo hi).toNat = hi.toNat * 256 + lo.toNat := by
  rw [le16, BitVec.toNat_append, ← Nat.shiftLeft_add_eq_or_of_lt lo.isLt, Nat.shiftLeft_eq]

/-- Settles O3: the two bytes stand in disjoint bits, so joining them adds. -/
theorem littleEndianComposition : Obligations.LittleEndianComposition := by
  unfold Obligations.LittleEndianComposition
  exact le16_toNat

/-! ### The forms of the resolver, one equation each (30_encoding.md R69-R74) -/

@[simp] theorem resolveRm_three (rm : RegCode) (bs : List Byte) : resolveRm 3#2 rm bs = some (.reg rm, bs) := rfl

theorem resolveRm_zero {rm : RegCode} (h : rm ≠ 6#3) (bs : List Byte) :
    resolveRm 0#2 rm bs = some (.noDisp (eaBase 0#2 rm), bs) :=
  if_neg h

@[simp] theorem resolveRm_zero_six (lo hi : Byte) (bs : List Byte) :
    resolveRm 0#2 6#3 (lo :: hi :: bs) = some (.direct (le16 lo hi), bs) := rfl

@[simp] theorem resolveRm_one (rm : RegCode) (d : Byte) (bs : List Byte) :
    resolveRm 1#2 rm (d :: bs) = some (.disp8 (eaBase 1#2 rm) d, bs) := rfl

@[simp] theorem resolveRm_two (rm : RegCode) (lo hi : Byte) (bs : List Byte) :
    resolveRm 2#2 rm (lo :: hi :: bs) = some (.disp16 (eaBase 2#2 rm) (le16 lo hi), bs) := rfl

/-- Settles O6: the equations above name the operand of each form, and `RmOperand.operand` reads it as R69 to R74 do. -/
theorem resolverForms : Obligations.ResolverForms := by
  unfold Obligations.ResolverForms
  intro w size rm lo hi bs
  refine ⟨?register, ?base, ?direct, ?disp8, ?disp16⟩
  case register => exact ⟨.reg rm, resolveRm_three rm bs, rfl, rfl⟩
  case base => exact fun h6 => ⟨.noDisp (eaBase 0 rm), resolveRm_zero h6 bs, rfl⟩
  case direct => exact ⟨.direct (le16 lo hi), resolveRm_zero_six lo hi bs, rfl⟩
  case disp8 => exact ⟨.disp8 (eaBase 1 rm) lo, resolveRm_one rm lo bs, rfl⟩
  case disp16 => exact ⟨.disp16 (eaBase 2 rm) (le16 lo hi), resolveRm_two rm lo hi bs, rfl⟩

end Sys2Proof

namespace Sys2Proof.Machine

/-! ### The register tables (30_encoding.md R65-R67) -/

theorem regName8_injective (c c' : RegCode) (h : regName8 c = regName8 c') : c = c' := by
  revert c c'; decide

theorem regName16_injective (c c' : RegCode) (h : regName16 c = regName16 c') : c = c' := by
  revert c c'; decide

theorem regName8_ne_regName16 (c c' : RegCode) : regName8 c ≠ regName16 c' := by
  revert c c'; decide

/-- A register's name determines its code and its width (30_encoding.md R67). -/
theorem regName_injective {c c' : RegCode} {w w' : Width} (h : regName c w = regName c' w') : c = c' ∧ w = w' := by
  cases w with
  | w8 =>
    cases w' with
    | w8 => exact ⟨regName8_injective c c' h, rfl⟩
    | w16 => exact absurd h (regName8_ne_regName16 c c')
  | w16 =>
    cases w' with
    | w8 => exact absurd h.symm (regName8_ne_regName16 c' c)
    | w16 => exact ⟨regName16_injective c c' h, rfl⟩

/-- Settles O4: the tables evaluate to the two lists, and names are distinct within each table and between the two. -/
theorem registerNameTables : Obligations.RegisterNameTables := by
  unfold Obligations.RegisterNameTables
  exact ⟨rfl, rfl, fun _ _ _ _ => regName_injective⟩

/-! ### The base table (30_encoding.md R68) -/

theorem eaBase_six_of_ne_zero {mod : ModField} (h : mod ≠ 0#2) : eaBase mod 6#3 = .bp :=
  if_neg h

/-- Settles O5: no row but that of rm = 6 looks at `mod`, so the others are read off; rm = 6 is split on `mod`. -/
theorem effectiveAddressBaseTable : Obligations.EffectiveAddressBaseTable := by
  unfold Obligations.EffectiveAddressBaseTable
  exact ⟨fun _ _ => rfl, rfl, eaBase_six_of_ne_zero (by decide), eaBase_six_of_ne_zero (by decide), rfl⟩

end Sys2Proof.Machine
end

section
/-! SUPPORT. Proof of the statement of 40_mov_rm_reg.md: what a step does at 88, 89, 8A and 8B (R100). -/

namespace Sys2Proof

/-! ### How many bytes the resolver needs (30_encoding.md R72) -/

/-- The resolver succeeds where its displacement or address bytes are all there. -/
theorem resolveRm_of_dispLen_le {mod : ModField} {rm : RegCode} {bs : List Byte} (h : dispLen mod rm ≤ bs.length) :
    ∃ o rest, resolveRm mod rm bs = some (o, rest) := by
  rcases mod_cases mod with rfl | rfl | rfl | rfl
  · by_cases h6 : rm = 6#3
    · subst h6
      rcases bs with _ | ⟨lo, _ | ⟨hi, bs⟩⟩ <;> simp [dispLen] at h
      exact ⟨_, _, resolveRm_zero_six lo hi bs⟩
    · exact ⟨_, _, resolveRm_zero h6 bs⟩
  · rcases bs with _ | ⟨lo, bs⟩ <;> simp [dispLen] at h
    exact ⟨_, _, resolveRm_one rm lo bs⟩
  · rcases bs with _ | ⟨lo, _ | ⟨hi, bs⟩⟩ <;> simp [dispLen] at h
    exact ⟨_, _, resolveRm_two rm lo hi bs⟩
  · exact ⟨_, _, resolveRm_three rm bs⟩

/-- The resolver's operand has the displacement length of the fields it was found by. -/
theorem resolveRm_dispLength {mod : ModField} {rm : RegCode} {bs rest : List Byte} {o : RmOperand}
    (h : resolveRm mod rm bs = some (o, rest)) : o.dispLength = dispLen mod rm := by
  obtain ⟨-, hmod, hrm, -⟩ := resolveRm_some h
  rw [RmOperand.dispLength, hmod, hrm]

/-- What the resolver takes is its operand's displacement bytes: with fewer than `dispLen` bytes it fails. -/
theorem resolveRm_of_lt_dispLen {mod : ModField} {rm : RegCode} {bs : List Byte} (h : bs.length < dispLen mod rm) :
    resolveRm mod rm bs = none := by
  cases hr : resolveRm mod rm bs with
  | none => rfl
  | some answer =>
    obtain ⟨hwf, -, -, hbs⟩ := resolveRm_some hr
    have htaken := congrArg List.length hbs
    rw [List.length_append, dispBytes_length _ hwf, resolveRm_dispLength hr] at htaken
    omega

/-! ### Class RM_REG (40_mov_rm_reg.md R100) -/

theorem rmRegInstr_length (w : Width) (d : Bool) (reg : RegCode) (rm : RmOperand) :
    (rmRegInstr w d reg rm).length = 2 + rm.dispLength := by
  cases w <;> cases d <;> rfl

/-- The direction flag orders the two operands. -/
theorem rmRegInstr_operands (w : Width) (d : Bool) (reg : RegCode) (rm : RmOperand) :
    (rmRegInstr w d reg rm).operands =
      if d then [.reg w reg, rm.operand w .none] else [rm.operand w .none, .reg w reg] := by
  cases w <;> cases d <;> rfl

section

variable {b0 : Byte} {w : Width} {d : Bool} (h : dispatch b0 = some ⟨.rmReg, w, d, true, .mov⟩)
include h

theorem decode_rmReg_without_modRM : decode [b0] = .error (.truncated none) := by
  simp [decode, h]

theorem decode_rmReg_of_lt_dispLen {m : Byte} {bs : List Byte} (hlt : bs.length < dispLen (modOf m) (rmOf m)) :
    decode (b0 :: m :: bs) = .error (.truncated none) := by
  simp [decode, h, decodeRmReg, resolveRm_of_lt_dispLen hlt]

theorem decode_rmReg_of_resolveRm {m : Byte} {bs rest : List Byte} {rm : RmOperand}
    (hr : resolveRm (modOf m) (rmOf m) bs = some (rm, rest)) :
    decode (b0 :: m :: bs) = .ok (rmRegInstr w d (regOf m) rm, rest) := by
  simp [decode, h, decodeRmReg, hr]

end

end Sys2Proof

namespace Sys2Proof.Machine

/-! ### The bytes looked at -/

theorem window_succ_of_memRead {s : State} {a : Nat} {b : Byte} (h : s.memRead a = some b) (k : Nat) :
    s.window a (k + 1) = b :: s.window (a + 1) k := by
  simp [State.window, h]

theorem window_of_le {s : State} {a : Nat} (h : s.n ≤ a) (k : Nat) : s.window a k = [] := by
  cases k with
  | zero => rfl
  | succ k => simp [State.window, memRead_of_le h]

/-- The window's bytes are the stream's. -/
theorem memRead_of_window_getElem? {s : State} {a k j : Nat} {b : Byte} (h : (s.window a k)[j]? = some b) :
    s.memRead (a + j) = some b := by
  induction k generalizing a j with
  | zero => simp [State.window] at h
  | succ k ih =>
    cases hb : s.memRead a with
    | none => simp [State.window, hb] at h
    | some b' =>
      rw [window_succ_of_memRead hb] at h
      cases j with
      | zero => exact hb.trans h
      | succ j =>
        rw [List.getElem?_cons_succ] at h
        rw [← ih h, Nat.succ_add_eq_add_succ]

/-- Where the ModRM byte exists, up to four bytes after it are looked at. -/
theorem fetchBytes_of_modRM {s : State} {b0 m : Byte} (hb0 : s.memRead s.cursor = some b0)
    (hm : s.memRead (s.cursor + 1) = some m) : s.fetchBytes = b0 :: m :: s.window (s.cursor + 2) 4 := by
  rw [State.fetchBytes, maxInstrLength, window_succ_of_memRead hb0, window_succ_of_memRead hm]

/-! ### The resolver on the stream (30_encoding.md R69-R74, R84) -/

theorem wordAt_of_memRead {s : State} {a : Nat} {lo hi : Byte} (hlo : s.memRead a = some lo)
    (hhi : s.memRead (a + 1) = some hi) : s.wordAt a = some (le16 lo hi) := by
  simp [State.wordAt, hlo, hhi]

/-- The two resolvers agree: what one answers on stream bytes, the other answers at their offset. -/
theorem resolveRM_of_resolveRm {s : State} {p : Nat} {mod : ModField} {rm : RegCode} {bs rest : List Byte}
    {o : RmOperand} (hbs : ∀ (j : Nat) (b : Byte), bs[j]? = some b → s.memRead (p + j) = some b)
    (hr : resolveRm mod rm bs = some (o, rest)) (w : Width) (size : SizeKw) :
    s.resolveRM p mod rm w size = some (o.operand w size) := by
  rcases mod_cases mod with rfl | rfl | rfl | rfl
  · by_cases h6 : rm = 6#3
    · subst h6
      rcases bs with _ | ⟨lo, _ | ⟨hi, bs⟩⟩ <;> simp [resolveRm] at hr
      obtain ⟨rfl, rfl⟩ := hr
      have haddr : s.wordAt p = some (le16 lo hi) := wordAt_of_memRead (hbs 0 lo rfl) (hbs 1 hi rfl)
      simp [State.resolveRM, haddr, RmOperand.operand]
    · rw [resolveRm_zero h6] at hr
      cases hr
      simp [State.resolveRM, h6, RmOperand.operand]
  · rcases bs with _ | ⟨lo, bs⟩ <;> simp [resolveRm] at hr
    obtain ⟨rfl, rfl⟩ := hr
    have hdisp : s.memRead p = some lo := hbs 0 lo rfl
    simp [State.resolveRM, hdisp, RmOperand.operand, sext16]
  · rcases bs with _ | ⟨lo, _ | ⟨hi, bs⟩⟩ <;> simp [resolveRm] at hr
    obtain ⟨rfl, rfl⟩ := hr
    have hdisp : s.wordAt p = some (le16 lo hi) := wordAt_of_memRead (hbs 0 lo rfl) (hbs 1 hi rfl)
    simp [State.resolveRM, hdisp, RmOperand.operand]
  · rw [resolveRm_three] at hr
    cases hr
    simp [State.resolveRM, RmOperand.operand]

/-! ### A READY step by what its bytes decode to (10_state.md R28) -/

theorem step_of_decode_ok {s : State} {i : Instr} {rest : List Byte} (hready : s.status = .ready)
    (hd : decode s.fetchBytes = .ok (i, rest)) : step s = exec i s := by
  simp [step, hready, hd]

/-- On a complete stream, bytes that end too soon end at N, so the step takes the fault at the cursor
(60_exceptions.md R119). -/
theorem step_of_decode_truncated {s : State} {b0 : Byte} (hcomplete : s.StreamComplete) (hready : s.status = .ready)
    (hb0 : s.memRead s.cursor = some b0) (hd : decode s.fetchBytes = .error (.truncated none)) :
    step s = .next (s.takeFault .truncatedInstruction s.cursor b0 (s.n - s.cursor)) := by
  have hend : s.n ≤ s.cursor + s.fetchBytes.length := by
    have hshort := (decode_truncated hd).1
    have hlen : s.fetchBytes.length = min 6 (s.n - s.cursor) := window_length_of_complete hcomplete s.cursor 6
    omega
  have hstep : step s = s.truncatedAtCursor := by simp [step, hready, hd, State.decodeFailed]
  rw [hstep]
  exact truncatedAtCursor_eq_next.mpr ⟨hend, faultAtCursor_eq_next.mpr ⟨b0, hb0, rfl⟩⟩

/-! ### A step at 88, 89, 8A and 8B (40_mov_rm_reg.md R100) -/

/-- The four opcodes are those of class RM_REG, with the width and direction listed. -/
theorem dispatch_rmReg {b0 : Byte} {w : Width} {d : Bool}
    (h : (b0, w, d) ∈
      [((0x88 : Byte), Width.w8, false), (0x89, .w16, false), (0x8A, .w8, true), (0x8B, .w16, true)]) :
    dispatch b0 = some ⟨.rmReg, w, d, true, .mov⟩ := by
  simp only [List.mem_cons, Prod.mk.injEq, List.not_mem_nil, or_false] at h
  rcases h with ⟨rfl, rfl, rfl⟩ | ⟨rfl, rfl, rfl⟩ | ⟨rfl, rfl, rfl⟩ | ⟨rfl, rfl, rfl⟩
  · exact dispatch_88
  · exact dispatch_89
  · exact dispatch_8A
  · exact dispatch_8B

/-- The class has no refusal: its meaning is the bound check and the record. -/
theorem exec_rmRegInstr (w : Width) (d : Bool) (reg : RegCode) (rm : RmOperand) (s : State) :
    exec (rmRegInstr w d reg rm) s = s.emitDecoded (rmRegInstr w d reg rm) := by
  cases w <;> cases d <;> rfl

section

variable {s : State} {b0 : Byte} {w : Width} {d : Bool} (hdesc : dispatch b0 = some ⟨.rmReg, w, d, true, .mov⟩)
  (hcomplete : s.StreamComplete) (hready : s.status = .ready) (hb0 : s.memRead s.cursor = some b0)
include hdesc hcomplete hready hb0

/-- The stream ends before the ModRM byte. -/
theorem step_rmReg_without_modRM (hlt : s.n < s.cursor + 2) :
    step s = .next (s.takeFault .truncatedInstruction s.cursor b0 (s.n - s.cursor)) := by
  have hbytes : s.fetchBytes = [b0] := by
    rw [State.fetchBytes, maxInstrLength, window_succ_of_memRead hb0, window_of_le (by omega)]
  apply step_of_decode_truncated hcomplete hready hb0
  rw [hbytes]
  exact decode_rmReg_without_modRM hdesc

variable {m : Byte} (hm : s.memRead (s.cursor + 1) = some m)
include hm

/-- The stream ends inside the displacement. -/
theorem step_rmReg_of_short (hlt : s.n < s.cursor + (2 + dispLen (modOf m) (rmOf m))) :
    step s = .next (s.takeFault .truncatedInstruction s.cursor b0 (s.n - s.cursor)) := by
  have hdisp : (s.window (s.cursor + 2) 4).length < dispLen (modOf m) (rmOf m) := by
    have hinside := memRead_lt hm
    rw [window_length_of_complete hcomplete]
    omega
  apply step_of_decode_truncated hcomplete hready hb0
  rw [fetchBytes_of_modRM hb0 hm]
  exact decode_rmReg_of_lt_dispLen hdesc hdisp

/-- The whole instruction lies in the stream. -/
theorem step_rmReg_of_complete (hle : s.cursor + (2 + dispLen (modOf m) (rmOf m)) ≤ s.n) :
    ∃ rmop raw, s.resolveRM (s.cursor + 2) (modOf m) (rmOf m) w .none = some rmop ∧
      s.slice s.cursor (2 + dispLen (modOf m) (rmOf m)) = some raw ∧
      step s = .next (s.emit
        ⟨s.cursor, 2 + dispLen (modOf m) (rmOf m), raw, .mov,
          if d then [.reg w (regOf m), rmop] else [rmop, .reg w (regOf m)]⟩) := by
  have hdisp : dispLen (modOf m) (rmOf m) ≤ (s.window (s.cursor + 2) 4).length := by
    have htwo := dispLen_le (modOf m) (rmOf m)
    rw [window_length_of_complete hcomplete]
    omega
  obtain ⟨rm, rest, hr⟩ := resolveRm_of_dispLen_le hdisp
  have hlen : (rmRegInstr w d (regOf m) rm).length = 2 + dispLen (modOf m) (rmOf m) := by
    rw [rmRegInstr_length, resolveRm_dispLength hr]
  have hdecode : decode s.fetchBytes = .ok (rmRegInstr w d (regOf m) rm, rest) := by
    rw [fetchBytes_of_modRM hb0 hm]
    exact decode_rmReg_of_resolveRm hdesc hr
  have hrmop := resolveRM_of_resolveRm (fun _ _ => memRead_of_window_getElem?) hr w .none
  rw [← hlen] at hle ⊢
  obtain ⟨raw, hraw⟩ := slice_of_complete hcomplete hle
  refine ⟨rm.operand w .none, raw, hrmop, hraw, ?_⟩
  rw [step_of_decode_ok hready hdecode, exec_rmRegInstr, ← rmRegInstr_operands]
  exact emitDecoded_eq_next.mpr (.inr ⟨hle, raw, hraw, rfl⟩)

end

/-- Settles O18: the four opcodes share one descriptor class, and the bytes from the cursor to N decide between a
missing ModRM byte, a displacement cut off and a whole instruction. -/
theorem rmRegFamilyStep : Obligations.RmRegFamilyStep := by
  unfold Obligations.RmRegFamilyStep
  intro s b0 w d hmem hcomplete hready hb0
  have hdesc := dispatch_rmReg hmem
  exact ⟨step_rmReg_without_modRM hdesc hcomplete hready hb0, fun m hm =>
    ⟨step_rmReg_of_short hdesc hcomplete hready hb0 hm, step_rmReg_of_complete hdesc hcomplete hready hb0 hm⟩⟩

end Sys2Proof.Machine
end

section
/-! SUPPORT. Proof of the statement of 41_mov_imm_reg.md: what a step does at B0 to BF (R106). -/

namespace Sys2Proof

/-! ### Class IMM_REG (41_mov_imm_reg.md R106) -/

/-- The sixteen opcodes are those of class IMM_REG, with the width of their half. -/
theorem dispatch_immReg {b0 : Byte} {w : Width}
    (h : (w = .w8 ∧ 0xB0 ≤ b0.toNat ∧ b0.toNat ≤ 0xB7) ∨ (w = .w16 ∧ 0xB8 ≤ b0.toNat ∧ b0.toNat ≤ 0xBF)) :
    dispatch b0 = some ⟨.immReg, w, false, false, .mov⟩ := by
  have table8 : ∀ b : Byte, 0xB0 ≤ b.toNat ∧ b.toNat ≤ 0xB7 →
      dispatch b = some ⟨.immReg, .w8, false, false, .mov⟩ := by decide
  have table16 : ∀ b : Byte, 0xB8 ≤ b.toNat ∧ b.toNat ≤ 0xBF →
      dispatch b = some ⟨.immReg, .w16, false, false, .mov⟩ := by decide
  rcases h with ⟨rfl, hrange⟩ | ⟨rfl, hrange⟩
  · exact table8 b0 hrange
  · exact table16 b0 hrange

theorem opcodeReg_eq_ofNat (b0 : Byte) : opcodeReg b0 = BitVec.ofNat 3 b0.toNat := rfl

theorem decode_of_dispatch_immReg {b0 : Byte} {w : Width} (h : dispatch b0 = some ⟨.immReg, w, false, false, .mov⟩)
    (bs : List Byte) : decode (b0 :: bs) = decodeImmReg w b0 bs := by
  simp [decode, h]

/-- With fewer than `immLen` bytes after the opcode byte the immediate is cut off. -/
theorem decodeImmReg_of_lt_immLen {w : Width} {b0 : Byte} {bs : List Byte} (h : bs.length < immLen w) :
    decodeImmReg w b0 bs = .error (.truncated none) := by
  cases w with
  | w8 =>
    rcases bs with _ | ⟨v, bs⟩
    · rfl
    · simp [immLen] at h
  | w16 =>
    rcases bs with _ | ⟨lo, _ | ⟨hi, bs⟩⟩
    · rfl
    · rfl
    · simp [immLen] at h

end Sys2Proof

namespace Sys2Proof.Machine

/-! ### A step at B0-B7 and B8-BF (41_mov_imm_reg.md R106) -/

theorem fetchBytes_of_memRead {s : State} {b0 : Byte} (hb0 : s.memRead s.cursor = some b0) :
    s.fetchBytes = b0 :: s.window (s.cursor + 1) 5 := by
  rw [State.fetchBytes, maxInstrLength, window_succ_of_memRead hb0]

/-- A decoded instruction whose meaning has no refusal, and which lies in the stream whole, is emitted. -/
theorem step_of_decode_emitDecoded {s : State} {i : Instr} {rest : List Byte} (hcomplete : s.StreamComplete)
    (hready : s.status = .ready) (hd : decode s.fetchBytes = .ok (i, rest)) (hexec : exec i s = s.emitDecoded i)
    (hle : s.cursor + i.length ≤ s.n) :
    ∃ raw, s.slice s.cursor i.length = some raw ∧
      step s = .next (s.emit ⟨s.cursor, i.length, raw, .mov, i.operands⟩) := by
  obtain ⟨raw, hraw⟩ := slice_of_complete hcomplete hle
  refine ⟨raw, hraw, ?_⟩
  rw [step_of_decode_ok hready hd, hexec]
  exact emitDecoded_eq_next.mpr (.inr ⟨hle, raw, hraw, rfl⟩)

section

variable {s : State} {b0 : Byte} {w : Width} (hdesc : dispatch b0 = some ⟨.immReg, w, false, false, .mov⟩)
  (hcomplete : s.StreamComplete) (hready : s.status = .ready) (hb0 : s.memRead s.cursor = some b0)
include hdesc hcomplete hready hb0

/-- The stream ends inside the immediate. -/
theorem step_immReg_of_short (hlt : s.n < s.cursor + (1 + immLen w)) :
    step s = .next (s.takeFault .truncatedInstruction s.cursor b0 (s.n - s.cursor)) := by
  have himm : (s.window (s.cursor + 1) 5).length < immLen w := by
    have hinside := memRead_lt hb0
    rw [window_length_of_complete hcomplete]
    omega
  apply step_of_decode_truncated hcomplete hready hb0
  rw [fetchBytes_of_memRead hb0, decode_of_dispatch_immReg hdesc]
  exact decodeImmReg_of_lt_immLen himm

/-- The whole instruction lies in the stream: the width says how many immediate bytes are read. -/
theorem step_immReg_of_complete (hle : s.cursor + (1 + immLen w) ≤ s.n) :
    ∃ imm raw, s.immAt w (s.cursor + 1) = some imm ∧ s.slice s.cursor (1 + immLen w) = some raw ∧
      step s = .next (s.emit ⟨s.cursor, 1 + immLen w, raw, .mov, [.reg w (opcodeReg b0), imm]⟩) := by
  have hdecode : decode s.fetchBytes = decodeImmReg w b0 (s.window (s.cursor + 1) 5) := by
    rw [fetchBytes_of_memRead hb0, decode_of_dispatch_immReg hdesc]
  have hwithin := hle
  cases w with
  | w8 =>
    simp only [immLen] at hwithin
    obtain ⟨v, hv⟩ := memRead_of_complete hcomplete (a := s.cursor + 1) (by omega)
    rw [window_succ_of_memRead hv] at hdecode
    obtain ⟨raw, hraw, hstep⟩ := step_of_decode_emitDecoded hcomplete hready hdecode rfl hle
    exact ⟨.imm8 v, raw, by simp [State.immAt, hv], hraw, hstep⟩
  | w16 =>
    simp only [immLen] at hwithin
    obtain ⟨lo, hlo⟩ := memRead_of_complete hcomplete (a := s.cursor + 1) (by omega)
    obtain ⟨hi, hhi⟩ := memRead_of_complete hcomplete (a := s.cursor + 1 + 1) (by omega)
    rw [window_succ_of_memRead hlo, window_succ_of_memRead hhi] at hdecode
    obtain ⟨raw, hraw, hstep⟩ := step_of_decode_emitDecoded hcomplete hready hdecode rfl hle
    exact ⟨.imm16 (le16 lo hi), raw, by simp [State.immAt, wordAt_of_memRead hlo hhi], hraw, hstep⟩

end

/-- Settles O19: the sixteen opcodes share one descriptor class, and the bytes from the cursor to N decide between an
immediate cut off and a whole instruction. -/
theorem immRegFamilyStep : Obligations.ImmRegFamilyStep := by
  unfold Obligations.ImmRegFamilyStep
  intro s b0 w hrange hcomplete hready hb0
  have hdesc := dispatch_immReg hrange
  rw [← opcodeReg_eq_ofNat]
  exact ⟨step_immReg_of_short hdesc hcomplete hready hb0, step_immReg_of_complete hdesc hcomplete hready hb0⟩

end Sys2Proof.Machine
end

section
/-! SUPPORT. Proof of the statement of 42_mov_imm_rm.md: what a step does at C6 and C7 under every value of the
parameters (R110 to R112). -/

namespace Sys2Proof

open Machine

/-! ### Immediates by width (30_encoding.md R62-R64) -/

/-- The value of an immediate of the given width. -/
abbrev Immediate : Width → Type
  | .w8 => Byte
  | .w16 => Word

/-- The bytes of an immediate in stream order. -/
def immBytes : (w : Width) → Immediate w → List Byte
  | .w8, v => [v]
  | .w16, v => wordBytes v

/-- The record's operand for an immediate. -/
def immOperand : (w : Width) → Immediate w → Operand
  | .w8, v => .imm8 v
  | .w16, v => .imm16 v

theorem immLen_le (w : Width) : immLen w ≤ 2 := by
  cases w <;> decide

/-- Where `immLen` bytes are left, an immediate stands at their front. -/
theorem exists_immBytes_append {w : Width} {bs : List Byte} (h : immLen w ≤ bs.length) :
    ∃ v tail, bs = immBytes w v ++ tail := by
  cases w with
  | w8 =>
    rcases bs with _ | ⟨v, tail⟩
    · simp [immLen] at h
    · exact ⟨v, tail, rfl⟩
  | w16 =>
    rcases bs with _ | ⟨lo, _ | ⟨hi, tail⟩⟩
    · simp [immLen] at h
    · simp [immLen] at h
    · exact ⟨le16 lo hi, tail, by simp [immBytes, wordBytes]⟩

/-! ### Class IMM_RM (42_mov_imm_rm.md R110) -/

/-- The size keyword of a memory destination of class IMM_RM (30_encoding.md R98). -/
def immRmSize : Width → SizeKw
  | .w8 => .byte
  | .w16 => .word

/-- The instruction of class IMM_RM of the given width (42_mov_imm_rm.md R113, R114). -/
def immRmInstr : (w : Width) → RegCode → RmOperand → Immediate w → Instr
  | .w8, regField, rm, v => .movRm8Imm8 regField rm v
  | .w16, regField, rm, v => .movRm16Imm16 regField rm v

theorem immRmInstr_length (w : Width) (regField : RegCode) (rm : RmOperand) (v : Immediate w) :
    (immRmInstr w regField rm v).length = 2 + rm.dispLength + immLen w := by
  cases w <;> rfl

theorem immRmInstr_operands (w : Width) (regField : RegCode) (rm : RmOperand) (v : Immediate w) :
    (immRmInstr w regField rm v).operands = [rm.operand w (immRmSize w), immOperand w v] := by
  cases w <;> rfl

/-- The two opcodes are those of class IMM_RM, with the width and size keyword listed. -/
theorem dispatch_immRm {b0 : Byte} {w : Width} {size : SizeKw}
    (h : (b0, w, size) ∈ [((0xC6 : Byte), Width.w8, SizeKw.byte), (0xC7, .w16, .word)]) :
    dispatch b0 = some ⟨.immRm, w, false, true, .mov⟩ ∧ size = immRmSize w := by
  simp only [List.mem_cons, Prod.mk.injEq, List.not_mem_nil, or_false] at h
  rcases h with ⟨rfl, rfl, rfl⟩ | ⟨rfl, rfl, rfl⟩
  · exact ⟨dispatch_C6, rfl⟩
  · exact ⟨dispatch_C7, rfl⟩

/-- The resolver takes `dispLen` bytes and leaves the others. -/
theorem resolveRm_bytes {mod : ModField} {rm : RegCode} {bs rest : List Byte} {o : RmOperand}
    (h : resolveRm mod rm bs = some (o, rest)) : ∃ front, front.length = dispLen mod rm ∧ bs = front ++ rest := by
  obtain ⟨hwf, -, -, hbs⟩ := resolveRm_some h
  exact ⟨o.dispBytes, by rw [dispBytes_length o hwf, resolveRm_dispLength h], hbs⟩

theorem decodeImmRm_of_resolveRm {w : Width} {m : Byte} {bs tail : List Byte} {rm : RmOperand} {v : Immediate w}
    (h : resolveRm (modOf m) (rmOf m) bs = some (rm, immBytes w v ++ tail)) :
    decodeImmRm w m bs = .ok (immRmInstr w (regOf m) rm v, tail) := by
  cases w with
  | w8 => simp [decodeImmRm, h, immBytes, immRmInstr]
  | w16 => simp [decodeImmRm, h, immBytes, wordBytes, immRmInstr]

/-- The bytes after the ModRM byte suffice: the operand and the immediate stand at their front. -/
theorem resolveRm_of_dispLen_add_immLen_le {mod : ModField} {rm : RegCode} {w : Width} {bs : List Byte}
    (h : dispLen mod rm + immLen w ≤ bs.length) :
    ∃ o v tail, resolveRm mod rm bs = some (o, immBytes w v ++ tail) := by
  obtain ⟨o, rest, hr⟩ := resolveRm_of_dispLen_le (Nat.le_of_add_right_le h)
  obtain ⟨front, hfront, rfl⟩ := resolveRm_bytes hr
  rw [List.length_append, hfront] at h
  obtain ⟨v, tail, rfl⟩ := exists_immBytes_append (Nat.le_of_add_le_add_left h)
  exact ⟨o, v, tail, hr⟩

/-- With the ModRM byte read and fewer than `dispLen + immLen` bytes after it, the displacement or the immediate is cut
off, and the error carries the ModRM byte. -/
theorem decodeImmRm_of_short {w : Width} {m : Byte} {bs : List Byte}
    (h : bs.length < dispLen (modOf m) (rmOf m) + immLen w) : decodeImmRm w m bs = .error (.truncated (some m)) := by
  cases hr : resolveRm (modOf m) (rmOf m) bs with
  | none => simp [decodeImmRm, hr]
  | some answer =>
    obtain ⟨rm, rest⟩ := answer
    obtain ⟨front, hfront, hbytes⟩ := resolveRm_bytes hr
    have hrest : rest.length < immLen w := by
      rw [hbytes, List.length_append, hfront] at h
      omega
    cases w with
    | w8 =>
      rcases rest with _ | ⟨v, rest⟩
      · simp [decodeImmRm, hr]
      · simp [immLen] at hrest
    | w16 =>
      rcases rest with _ | ⟨lo, _ | ⟨hi, rest⟩⟩
      · simp [decodeImmRm, hr]
      · simp [decodeImmRm, hr]
      · simp [immLen] at hrest

section

variable {b0 : Byte} {w : Width} (h : dispatch b0 = some ⟨.immRm, w, false, true, .mov⟩)
include h

theorem decode_immRm_without_modRM : decode [b0] = .error (.truncated none) := by
  simp [decode, h]

theorem decode_of_dispatch_immRm (m : Byte) (bs : List Byte) : decode (b0 :: m :: bs) = decodeImmRm w m bs := by
  simp [decode, h]

end

end Sys2Proof

namespace Sys2Proof.Machine

/-! ### The refusals (42_mov_imm_rm.md R111, R112) -/

section

variable {p : Params} {reg : RegCode} {mod : ModField} {rm : RegCode}

theorem immRmRefusal_regField (hpolicy : p.regPolicy = .refuse) (hreg : reg ≠ 0) :
    immRmRefusal p reg mod rm = some .regField :=
  if_pos ⟨hpolicy, hreg⟩

theorem not_refuse_of_admitted (h : p.regPolicy = .ignore ∨ reg = 0) : ¬ (p.regPolicy = .refuse ∧ reg ≠ 0) := by
  rintro ⟨hpolicy, hreg⟩
  rcases h with hignore | hzero
  · rw [hignore] at hpolicy
    cases hpolicy
  · exact hreg hzero

theorem immRmRefusal_dispUndecided (hreg : p.regPolicy = .ignore ∨ reg = 0)
    (hrule : p.dispRule = .refuseUndecided) (hform : ¬ (mod = 0 ∧ rm = 6)) :
    immRmRefusal p reg mod rm = some .dispUndecided := by
  rw [immRmRefusal, if_neg (not_refuse_of_admitted hreg), if_pos ⟨hrule, hform⟩]

theorem immRmRefusal_none (hreg : p.regPolicy = .ignore ∨ reg = 0)
    (hdisp : p.dispRule = .general ∨ (mod = 0 ∧ rm = 6)) : immRmRefusal p reg mod rm = none := by
  have hundecided : ¬ (p.dispRule = .refuseUndecided ∧ ¬ (mod = 0 ∧ rm = 6)) := by
    rintro ⟨hrule, hform⟩
    rcases hdisp with hgeneral | hdirect
    · rw [hgeneral] at hrule
      cases hrule
    · exact hform hdirect
  rw [immRmRefusal, if_neg (not_refuse_of_admitted hreg), if_neg hundecided]

end

/-! ### A step at C6 and C7 (42_mov_imm_rm.md R110) -/

theorem exec_immRmInstr (w : Width) (regField : RegCode) (rm : RmOperand) (v : Immediate w) (s : State) :
    exec (immRmInstr w regField rm v) s = s.emitUnlessRefused regField rm (immRmInstr w regField rm v) := by
  cases w <;> rfl

/-- The immediate at an offset is the one whose bytes stand there. -/
theorem immAt_of_immBytes {s : State} {a : Nat} {w : Width} {v : Immediate w} {tail : List Byte}
    (h : ∀ (j : Nat) (b : Byte), (immBytes w v ++ tail)[j]? = some b → s.memRead (a + j) = some b) :
    s.immAt w a = some (immOperand w v) := by
  cases w with
  | w8 =>
    have hv : s.memRead a = some v := h 0 v rfl
    simp [State.immAt, hv, immOperand]
  | w16 =>
    have hword := wordAt_of_memRead (h 0 (lowByte v) rfl) (h 1 (highByte v) rfl)
    rw [le16_low_high, Nat.add_zero] at hword
    simp [State.immAt, hword, immOperand]

section

variable {s : State} {b0 : Byte} {w : Width} (hdesc : dispatch b0 = some ⟨.immRm, w, false, true, .mov⟩)
  (hcomplete : s.StreamComplete) (hready : s.status = .ready) (hb0 : s.memRead s.cursor = some b0)

include hdesc hcomplete hready hb0 in
/-- The stream ends before the ModRM byte. -/
theorem step_immRm_without_modRM (hlt : s.n < s.cursor + 2) :
    step s = .next (s.takeFault .truncatedInstruction s.cursor b0 (s.n - s.cursor)) := by
  have hbytes : s.fetchBytes = [b0] := by
    rw [fetchBytes_of_memRead hb0, window_of_le (by omega)]
  apply step_of_decode_truncated hcomplete hready hb0
  rw [hbytes]
  exact decode_immRm_without_modRM hdesc

variable {m : Byte} (hm : s.memRead (s.cursor + 1) = some m)

include hdesc hready hb0 hm in
/-- The ModRM byte is read: a refusal comes first, whether or not the instruction is cut off (60_exceptions.md R123). -/
theorem step_immRm_of_refusal {r : RefuseReason}
    (hrefusal : immRmRefusal s.params (regOf m) (modOf m) (rmOf m) = some r) : step s = .next (s.takeRefusal r) := by
  have hdecode : decode s.fetchBytes = decodeImmRm w m (s.window (s.cursor + 2) 4) := by
    rw [fetchBytes_of_modRM hb0 hm, decode_of_dispatch_immRm hdesc]
  rcases Nat.lt_or_ge (s.window (s.cursor + 2) 4).length (dispLen (modOf m) (rmOf m) + immLen w) with hlt | hle
  · rw [decodeImmRm_of_short hlt] at hdecode
    simp [step, hready, hdecode, State.decodeFailed, hrefusal]
  · obtain ⟨rm, v, tail, hr⟩ := resolveRm_of_dispLen_add_immLen_le hle
    obtain ⟨-, hmod, hrm, -⟩ := resolveRm_some hr
    rw [decodeImmRm_of_resolveRm hr] at hdecode
    rw [step_of_decode_ok hready hdecode, exec_immRmInstr]
    exact emitUnlessRefused_eq_next.mpr (.inl ⟨r, by rwa [hmod, hrm], rfl⟩)

variable (hadmitted : immRmRefusal s.params (regOf m) (modOf m) (rmOf m) = none)
include hdesc hcomplete hready hb0 hm hadmitted

/-- The stream ends inside the displacement or the immediate of an admitted form. -/
theorem step_immRm_of_short (hlt : s.n < s.cursor + (2 + dispLen (modOf m) (rmOf m) + immLen w)) :
    step s = .next (s.takeFault .truncatedInstruction s.cursor b0 (s.n - s.cursor)) := by
  have hinside := memRead_lt hm
  have hwindow := window_length_of_complete hcomplete (s.cursor + 2) 4
  have hdisp := dispLen_le (modOf m) (rmOf m)
  have himm := immLen_le w
  have hbytes := fetchBytes_of_modRM hb0 hm
  have hdecode : decode s.fetchBytes = .error (.truncated (some m)) := by
    rw [hbytes, decode_of_dispatch_immRm hdesc]
    exact decodeImmRm_of_short (by omega)
  have hend : s.n ≤ s.cursor + s.fetchBytes.length := by
    rw [hbytes, List.length_cons, List.length_cons]
    omega
  have hstep : step s = s.truncatedAtCursor := by simp [step, hready, hdecode, State.decodeFailed, hadmitted]
  rw [hstep]
  exact truncatedAtCursor_eq_next.mpr ⟨hend, faultAtCursor_eq_next.mpr ⟨b0, hb0, rfl⟩⟩

/-- The whole instruction lies in the stream and its form is admitted. -/
theorem step_immRm_of_complete (hle : s.cursor + (2 + dispLen (modOf m) (rmOf m) + immLen w) ≤ s.n) :
    ∃ rmop imm raw, s.resolveRM (s.cursor + 2) (modOf m) (rmOf m) w (immRmSize w) = some rmop ∧
      s.immAt w (s.cursor + 2 + dispLen (modOf m) (rmOf m)) = some imm ∧
      s.slice s.cursor (2 + dispLen (modOf m) (rmOf m) + immLen w) = some raw ∧
      step s = .next (s.emit
        ⟨s.cursor, 2 + dispLen (modOf m) (rmOf m) + immLen w, raw, .mov, [rmop, imm]⟩) := by
  have hsuffices : dispLen (modOf m) (rmOf m) + immLen w ≤ (s.window (s.cursor + 2) 4).length := by
    have hdisp := dispLen_le (modOf m) (rmOf m)
    have himm := immLen_le w
    rw [window_length_of_complete hcomplete]
    omega
  obtain ⟨rm, v, tail, hr⟩ := resolveRm_of_dispLen_add_immLen_le hsuffices
  have hdecode : decode s.fetchBytes = .ok (immRmInstr w (regOf m) rm v, tail) := by
    rw [fetchBytes_of_modRM hb0 hm, decode_of_dispatch_immRm hdesc, decodeImmRm_of_resolveRm hr]
  have hrmop := resolveRM_of_resolveRm (fun _ _ => memRead_of_window_getElem?) hr w (immRmSize w)
  have himm : s.immAt w (s.cursor + 2 + dispLen (modOf m) (rmOf m)) = some (immOperand w v) := by
    obtain ⟨front, hfront, hbytes⟩ := resolveRm_bytes hr
    refine immAt_of_immBytes (tail := tail) fun j b hj => ?_
    rw [← hfront, Nat.add_assoc]
    apply memRead_of_window_getElem? (k := 4)
    rw [hbytes, List.getElem?_append_right (Nat.le_add_right _ _), Nat.add_sub_cancel_left, hj]
  have hlen : (immRmInstr w (regOf m) rm v).length = 2 + dispLen (modOf m) (rmOf m) + immLen w := by
    rw [immRmInstr_length, resolveRm_dispLength hr]
  have hexec : exec (immRmInstr w (regOf m) rm v) s = s.emitDecoded (immRmInstr w (regOf m) rm v) := by
    obtain ⟨-, hmod, hrm, -⟩ := resolveRm_some hr
    rw [exec_immRmInstr, State.emitUnlessRefused, hmod, hrm, hadmitted]
  rw [← hlen] at hle ⊢
  obtain ⟨raw, hraw, hstep⟩ := step_of_decode_emitDecoded hcomplete hready hdecode hexec hle
  rw [immRmInstr_operands] at hstep
  exact ⟨_, _, raw, hrmop, himm, hraw, hstep⟩

end

/-- Settles O20: the two opcodes share one descriptor class. Once the ModRM byte is read, `immRmRefusal` decides before
any length is looked at; where it is silent, the bytes from the cursor to N decide between a form cut off and a whole
instruction. -/
theorem immRmFamilyStep : Obligations.ImmRmFamilyStep := by
  unfold Obligations.ImmRmFamilyStep
  intro s b0 w size hmem hcomplete hready hb0
  obtain ⟨hdesc, rfl⟩ := dispatch_immRm hmem
  refine ⟨step_immRm_without_modRM hdesc hcomplete hready hb0, fun m hm => ⟨?regField, ?dispUndecided, ?admitted⟩⟩
  case regField =>
    exact fun hpolicy hreg => step_immRm_of_refusal hdesc hready hb0 hm (immRmRefusal_regField hpolicy hreg)
  case dispUndecided =>
    exact fun hreg hrule hform =>
      step_immRm_of_refusal hdesc hready hb0 hm (immRmRefusal_dispUndecided hreg hrule hform)
  case admitted =>
    intro hreg hdisp
    have hadmitted := immRmRefusal_none hreg hdisp
    exact ⟨step_immRm_of_short hdesc hcomplete hready hb0 hm hadmitted,
      step_immRm_of_complete hdesc hcomplete hready hb0 hm hadmitted⟩

end Sys2Proof.Machine
end

section
/-! SUPPORT. Proof of the statement of 60_exceptions.md: a step at a byte without a descriptor (R118). -/

namespace Sys2Proof

/-- A first byte without a descriptor decides, whatever bytes follow it. -/
theorem decode_of_dispatch_none {b0 : Byte} (h : dispatch b0 = none) (rest : List Byte) :
    decode (b0 :: rest) = .error .unassigned := by
  simp only [decode, h]

end Sys2Proof

namespace Sys2Proof.Machine

/-- Bytes that begin with an unassigned opcode make the step take its fault at the cursor. -/
theorem step_of_decode_unassigned {s : State} (hready : s.status = .ready)
    (hd : decode s.fetchBytes = .error .unassigned) : step s = s.faultAtCursor .unassignedOpcode := by
  simp only [step, hready, hd, State.decodeFailed]

/-- Settles O21: the bytes looked at begin with the byte at the cursor, and it alone decides that they decode to
nothing, so the step takes the fault at the cursor. -/
theorem unassignedOpcodeFaults : Obligations.UnassignedOpcodeFaults := by
  unfold Obligations.UnassignedOpcodeFaults
  intro s b hready hb hdispatch
  have hdecode : decode s.fetchBytes = .error .unassigned := by
    rw [fetchBytes_of_memRead hb, decode_of_dispatch_none hdispatch]
  rw [step_of_decode_unassigned hready hdecode]
  exact faultAtCursor_eq_next.mpr ⟨b, hb, rfl⟩

end Sys2Proof.Machine
end

section
/-! SUPPORT. Proofs of the statements of 70_reset_and_hazards.md: which files the loader takes (R141), and the segments
of a loaded file (R144). -/

namespace Sys2Proof.Machine

/-! ### What the loader's readers and checks answer -/

/-- A reader or check that is sequenced with more succeeds together with it. -/
theorem except_bind_eq_ok {ε α β : Type} {x : Except ε α} {f : α → Except ε β} {b : β} :
    (x >>= f) = .ok b ↔ ∃ a, x = .ok a ∧ f a = .ok b := by
  cases x with
  | ok a => exact ⟨fun h => ⟨a, rfl, h⟩, fun ⟨_, ha, h⟩ => by cases ha; exact h⟩
  | error e => exact ⟨nofun, fun ⟨_, ha, _⟩ => by cases ha⟩

theorem fileByte_eq_ok {file : List Byte} {a : Nat} {b : Byte} : fileByte file a = .ok b ↔ file[a]? = some b := by
  unfold fileByte
  cases file[a]? <;> simp

theorem fileSegment_eq_ok {file bs : List Byte} {a k : Nat} :
    fileSegment file a k = .ok bs ↔ a + k ≤ file.length ∧ (file.drop a).take k = bs := by
  unfold fileSegment
  split <;> simp [*]

/-- The magic check is passed exactly by the files with byte 01 at offset 0 and byte 03 at offset 1. -/
theorem checkMagic_eq_ok {file : List Byte} :
    checkMagic file = .ok () ↔ file[0]? = some 0x01 ∧ file[1]? = some 0x03 := by
  simp only [checkMagic, except_bind_eq_ok, fileByte_eq_ok]
  constructor
  · rintro ⟨m0, h0, m1, h1, hif⟩
    split at hif
    · next hmagic => exact ⟨hmagic.1 ▸ h0, hmagic.2 ▸ h1⟩
    · cases hif
  · rintro ⟨h0, h1⟩
    exact ⟨_, h0, _, h1, rfl⟩

theorem take_two_of_checkMagic {file : List Byte} (h : checkMagic file = .ok ()) : file.take 2 = [0x01, 0x03] := by
  obtain ⟨h0, h1⟩ := checkMagic_eq_ok.mp h
  simp [List.take_add_one, h0, h1]

/-- A file is loaded exactly when every part of `load` succeeds, and the image holds what the parts read. -/
theorem load_eq_ok {file : List Byte} {image : Image} :
    load file = .ok image ↔
      checkMagic file = .ok () ∧ readHeader file = .ok image.header ∧ checkSizes image.header = .ok () ∧
        fileSegment file image.header.headerLen.toNat image.header.textSize.toNat = .ok image.text ∧
        fileSegment file (image.header.headerLen.toNat + image.header.textSize.toNat) image.header.dataSize.toNat =
          .ok image.data := by
  simp only [load, except_bind_eq_ok]
  constructor
  · rintro ⟨_, hmagic, h, hheader, _, hsizes, text, htext, data, hdata, ⟨⟩⟩
    exact ⟨hmagic, hheader, hsizes, htext, hdata⟩
  · rintro ⟨hmagic, hheader, hsizes, htext, hdata⟩
    exact ⟨_, hmagic, _, hheader, _, hsizes, _, htext, _, hdata, rfl⟩

/-! ### Booting is loading followed by `RESET` (70_reset_and_hazards.md R145-R147) -/

theorem boot_of_load_ok {file : List Byte} {image : Image} (h : load file = .ok image) (p : Params) (start : Nat) :
    boot p file start = .ok (State.afterReset p image.text start) := by
  rw [boot, h]; rfl

theorem boot_of_load_error {file : List Byte} {e : LoadError} (h : load file = .error e) (p : Params) (start : Nat) :
    boot p file start = .error e := by
  rw [boot, h]; rfl

/-! ### A segment is a slice of the file (70_reset_and_hazards.md R144) -/

theorem fileSegment_length {file bs : List Byte} {a k : Nat} (h : fileSegment file a k = .ok bs) : bs.length = k := by
  obtain ⟨hle, rfl⟩ := fileSegment_eq_ok.mp h
  rw [List.length_take, List.length_drop]
  omega

/-- The segment's bytes are the file's from offset `a`, and it has none past its `k`. -/
theorem fileSegment_getElem? {file bs : List Byte} {a k : Nat} (h : fileSegment file a k = .ok bs) (j : Nat) :
    bs[j]? = if j < k then file[a + j]? else none := by
  obtain ⟨-, rfl⟩ := fileSegment_eq_ok.mp h
  rw [List.getElem?_take, List.getElem?_drop]

/-! ### The statements -/

/-- Settles O55: a loaded file's segments are the two slices `load` read, and booting it is `RESET` on the first. -/
theorem segmentsAreTheDeclaredSlices : Obligations.SegmentsAreTheDeclaredSlices := by
  unfold Obligations.SegmentsAreTheDeclaredSlices
  intro file image hload
  obtain ⟨-, -, -, htext, hdata⟩ := load_eq_ok.mp hload
  refine ⟨fileSegment_length htext, fileSegment_length hdata, ?textBytes, ?dataBytes, ?booted⟩
  case textBytes =>
    intro k hk
    rw [fileSegment_getElem? htext, if_pos hk]
  case dataBytes =>
    intro k hk
    rw [fileSegment_getElem? hdata, if_pos hk]
  case booted =>
    intro p start
    refine ⟨_, boot_of_load_ok hload p start, ?_, fun a => ?_⟩
    · rw [afterReset_n, fileSegment_length htext]
    · rw [afterReset_memRead, fileSegment_getElem? htext]

/-- Settles O53: `load` begins with the magic check, which only a file that begins with 01 03 passes, and a file that is
not loaded is not booted. -/
theorem wrongMagicIsNotLoaded : Obligations.WrongMagicIsNotLoaded := by
  unfold Obligations.WrongMagicIsNotLoaded
  intro file p start hmagic
  cases hload : load file with
  | error e => exact ⟨⟨e, rfl⟩, e, boot_of_load_error hload p start⟩
  | ok image =>
    obtain ⟨hchecked, -⟩ := load_eq_ok.mp hload
    exact absurd (take_two_of_checkMagic hchecked) hmagic

end Sys2Proof.Machine
end

section
/-! SUPPORT. Proofs of the statements of 30_encoding.md about the dispatch table (R80, R81), the resolver's length (R72)
and decoding against encoding (R53 to R90). The eight constructors fall into the three descriptor classes; each fact is
proved for a class once. -/

namespace Sys2Proof

open Machine

/-! ### The dispatch table (30_encoding.md R80, R81) -/

/-- Settles O8: six rows are single bytes; the two rows of eight and the gaps are read off the table byte by byte. -/
theorem dispatchTableAdmitsTwentyTwoBytes : Obligations.DispatchTableAdmitsTwentyTwoBytes := by
  unfold Obligations.DispatchTableAdmitsTwentyTwoBytes
  refine ⟨dispatch_88, dispatch_89, dispatch_8A, dispatch_8B, ?byteImm, ?wordImm, dispatch_C6, dispatch_C7, ?gaps,
    ?oneRow⟩
  case byteImm => exact fun b hlo hhi => dispatch_immReg (.inl ⟨rfl, hlo, hhi⟩)
  case wordImm => exact fun b hlo hhi => dispatch_immReg (.inr ⟨rfl, hlo, hhi⟩)
  case gaps => decide
  case oneRow => decide

/-- Settles O9: a finite table, read off for every byte. -/
theorem opcodeBitsAgreeWithDescriptors : Obligations.OpcodeBitsAgreeWithDescriptors := by
  unfold Obligations.OpcodeBitsAgreeWithDescriptors
  have table : ∀ b : Byte, ∀ desc ∈ dispatch b,
      (desc.cls = .rmReg → desc.d = b.getLsbD 1 ∧ (desc.w = .w16 ↔ b.getLsbD 0 = true)) ∧
      (desc.cls = .immReg → (desc.w = .w16 ↔ b.getLsbD 3 = true) ∧ (opcodeReg b).toNat = b.toNat % 8) ∧
      (desc.cls = .immRm → (desc.w = .w16 ↔ b.getLsbD 0 = true)) ∧
      (desc.hasModRM = true ↔ desc.cls ≠ .immReg) := by decide
  exact table

/-- The opcode byte of class RM_REG with the given descriptor flags. -/
def rmRegOpcode : Width → Bool → Byte
  | .w8, false => 0x88
  | .w16, false => 0x89
  | .w8, true => 0x8A
  | .w16, true => 0x8B

/-- The opcode byte of class IMM_REG of the given width for a register. -/
def immRegOpcode : Width → RegCode → Byte
  | .w8, reg => (0b10110#5 ++ reg : BitVec (5 + 3))
  | .w16, reg => (0b10111#5 ++ reg : BitVec (5 + 3))

/-- The opcode byte of class IMM_RM of the given width. -/
def immRmOpcode : Width → Byte
  | .w8 => 0xC6
  | .w16 => 0xC7

theorem dispatch_rmRegOpcode (w : Width) (d : Bool) :
    dispatch (rmRegOpcode w d) = some ⟨.rmReg, w, d, true, .mov⟩ := by
  cases w <;> cases d <;> decide

theorem dispatch_immRegOpcode (w : Width) (reg : RegCode) :
    dispatch (immRegOpcode w reg) = some ⟨.immReg, w, false, false, .mov⟩ := by
  cases w with
  | w8 => exact (dispatch_immReg8 reg).1
  | w16 => exact (dispatch_immReg16 reg).1

@[simp] theorem opcodeReg_immRegOpcode (w : Width) (reg : RegCode) : opcodeReg (immRegOpcode w reg) = reg := by
  cases w with
  | w8 => exact (dispatch_immReg8 reg).2
  | w16 => exact (dispatch_immReg16 reg).2

theorem dispatch_immRmOpcode (w : Width) : dispatch (immRmOpcode w) = some ⟨.immRm, w, false, true, .mov⟩ := by
  cases w with
  | w8 => exact dispatch_C6
  | w16 => exact dispatch_C7

/-- The admitted first bytes are the opcode bytes of the three classes, each with its class's descriptor. -/
theorem dispatch_class {b0 : Byte} {desc : Descriptor} (h : dispatch b0 = some desc) :
    (∃ w d, b0 = rmRegOpcode w d ∧ desc = ⟨.rmReg, w, d, true, .mov⟩) ∨
    (∃ w reg, b0 = immRegOpcode w reg ∧ desc = ⟨.immReg, w, false, false, .mov⟩) ∨
    (∃ w, b0 = immRmOpcode w ∧ desc = ⟨.immRm, w, false, true, .mov⟩) := by
  rcases dispatch_cases h with h | h | h | h | h | h | h | h
  · exact .inl ⟨.w8, false, h⟩
  · exact .inl ⟨.w16, false, h⟩
  · exact .inl ⟨.w8, true, h⟩
  · exact .inl ⟨.w16, true, h⟩
  · exact .inr (.inl ⟨.w8, opcodeReg b0, h⟩)
  · exact .inr (.inl ⟨.w16, opcodeReg b0, h⟩)
  · exact .inr (.inr ⟨.w8, h⟩)
  · exact .inr (.inr ⟨.w16, h⟩)

/-! ### Instructions by class -/

/-- The instruction of class IMM_REG of the given width (41_mov_imm_reg.md R107, R108). -/
def immRegInstr : (w : Width) → RegCode → Immediate w → Instr
  | .w8, reg, v => .movR8Imm8 reg v
  | .w16, reg, v => .movR16Imm16 reg v

/-- A property of the three classes holds of every instruction. -/
theorem instr_class_cases {P : Instr → Prop} (rmReg : ∀ w d reg rm, P (rmRegInstr w d reg rm))
    (immReg : ∀ w reg v, P (immRegInstr w reg v)) (immRm : ∀ w regField rm v, P (immRmInstr w regField rm v))
    (i : Instr) : P i := by
  cases i with
  | movRm8R8 reg rm => exact rmReg .w8 false reg rm
  | movRm16R16 reg rm => exact rmReg .w16 false reg rm
  | movR8Rm8 reg rm => exact rmReg .w8 true reg rm
  | movR16Rm16 reg rm => exact rmReg .w16 true reg rm
  | movR8Imm8 reg imm => exact immReg .w8 reg imm
  | movR16Imm16 reg imm => exact immReg .w16 reg imm
  | movRm8Imm8 regField rm imm => exact immRm .w8 regField rm imm
  | movRm16Imm16 regField rm imm => exact immRm .w16 regField rm imm

@[simp] theorem wf_rmRegInstr (w : Width) (d : Bool) (reg : RegCode) (rm : RmOperand) :
    (rmRegInstr w d reg rm).wf = rm.wf := by
  cases w <;> cases d <;> rfl

@[simp] theorem wf_immRegInstr (w : Width) (reg : RegCode) (v : Immediate w) : (immRegInstr w reg v).wf = true := by
  cases w <;> rfl

@[simp] theorem wf_immRmInstr (w : Width) (regField : RegCode) (rm : RmOperand) (v : Immediate w) :
    (immRmInstr w regField rm v).wf = rm.wf := by
  cases w <;> rfl

theorem encode_rmRegInstr (w : Width) (d : Bool) (reg : RegCode) (rm : RmOperand) :
    encode (rmRegInstr w d reg rm) = rmRegOpcode w d :: modRMByte rm.modField reg rm.rmField :: rm.dispBytes := by
  cases w <;> cases d <;> rfl

theorem encode_immRegInstr (w : Width) (reg : RegCode) (v : Immediate w) :
    encode (immRegInstr w reg v) = immRegOpcode w reg :: immBytes w v := by
  cases w <;> rfl

theorem encode_immRmInstr (w : Width) (regField : RegCode) (rm : RmOperand) (v : Immediate w) :
    encode (immRmInstr w regField rm v) =
      immRmOpcode w :: modRMByte rm.modField regField rm.rmField :: (rm.dispBytes ++ immBytes w v) := by
  cases w <;> rfl

theorem immRegInstr_length (w : Width) (reg : RegCode) (v : Immediate w) :
    (immRegInstr w reg v).length = 1 + immLen w := by
  cases w <;> rfl

theorem immRegInstr_operands (w : Width) (reg : RegCode) (v : Immediate w) :
    (immRegInstr w reg v).operands = [.reg w reg, immOperand w v] := by
  cases w <;> rfl

theorem encode_length {i : Instr} (h : i.wf = true) : (encode i).length = i.length := by
  have family : Laws.EncodedLength.Statement i := by
    cases i with
    | movRm8R8 reg rm => exact Laws.EncodedLength.movRm8R8 reg rm
    | movRm16R16 reg rm => exact Laws.EncodedLength.movRm16R16 reg rm
    | movR8Rm8 reg rm => exact Laws.EncodedLength.movR8Rm8 reg rm
    | movR16Rm16 reg rm => exact Laws.EncodedLength.movR16Rm16 reg rm
    | movR8Imm8 reg imm => exact Laws.EncodedLength.movR8Imm8 reg imm
    | movR16Imm16 reg imm => exact Laws.EncodedLength.movR16Imm16 reg imm
    | movRm8Imm8 regField rm imm => exact Laws.EncodedLength.movRm8Imm8 regField rm imm
    | movRm16Imm16 regField rm imm => exact Laws.EncodedLength.movRm16Imm16 regField rm imm
  exact (family h).1

/-! ### Decoding by class -/

theorem decodeImmReg_immBytes (w : Width) (b0 : Byte) (v : Immediate w) (tail : List Byte) :
    decodeImmReg w b0 (immBytes w v ++ tail) = .ok (immRegInstr w (opcodeReg b0) v, tail) := by
  cases w with
  | w8 => rfl
  | w16 => simp [decodeImmReg, immBytes, wordBytes, immRegInstr]

/-- An immediate-to-register form is decoded from its immediate's bytes. -/
theorem decodeImmReg_ok {w : Width} {b0 : Byte} {bs rest : List Byte} {i : Instr}
    (h : decodeImmReg w b0 bs = .ok (i, rest)) :
    ∃ v, bs = immBytes w v ++ rest ∧ i = immRegInstr w (opcodeReg b0) v := by
  rcases Nat.lt_or_ge bs.length (immLen w) with hlt | hle
  · rw [decodeImmReg_of_lt_immLen hlt] at h
    cases h
  · obtain ⟨v, tail, rfl⟩ := exists_immBytes_append hle
    rw [decodeImmReg_immBytes] at h
    cases h
    exact ⟨v, rfl, rfl⟩

/-- A register/memory form is decoded from what the resolver takes. -/
theorem decodeRmReg_ok {w : Width} {d : Bool} {m : Byte} {bs rest : List Byte} {i : Instr}
    (h : decodeRmReg w d m bs = .ok (i, rest)) :
    ∃ rm, resolveRm (modOf m) (rmOf m) bs = some (rm, rest) ∧ i = rmRegInstr w d (regOf m) rm := by
  unfold decodeRmReg at h
  split at h
  · next rm tail hr =>
    cases h
    exact ⟨rm, hr, rfl⟩
  · cases h

/-- An immediate-to-r/m form is decoded from what the resolver takes and the immediate's bytes after it. -/
theorem decodeImmRm_ok {w : Width} {m : Byte} {bs rest : List Byte} {i : Instr}
    (h : decodeImmRm w m bs = .ok (i, rest)) :
    ∃ rm v, resolveRm (modOf m) (rmOf m) bs = some (rm, immBytes w v ++ rest) ∧ i = immRmInstr w (regOf m) rm v := by
  rcases Nat.lt_or_ge bs.length (dispLen (modOf m) (rmOf m) + immLen w) with hlt | hle
  · rw [decodeImmRm_of_short hlt] at h
    cases h
  · obtain ⟨rm, v, tail, hr⟩ := resolveRm_of_dispLen_add_immLen_le hle
    rw [decodeImmRm_of_resolveRm hr] at h
    cases h
    exact ⟨rm, v, hr, rfl⟩

/-- What a decoded sequence is, by the class of its first byte. -/
theorem decode_ok_class {bs rest : List Byte} {i : Instr} (h : decode bs = .ok (i, rest)) :
    (∃ w d m tail rm, bs = rmRegOpcode w d :: m :: tail ∧ resolveRm (modOf m) (rmOf m) tail = some (rm, rest) ∧
      i = rmRegInstr w d (regOf m) rm) ∨
    (∃ w reg v, bs = immRegOpcode w reg :: (immBytes w v ++ rest) ∧ i = immRegInstr w reg v) ∨
    (∃ w m tail rm v, bs = immRmOpcode w :: m :: tail ∧
      resolveRm (modOf m) (rmOf m) tail = some (rm, immBytes w v ++ rest) ∧ i = immRmInstr w (regOf m) rm v) := by
  obtain ⟨b0, bs, rfl, hadmitted⟩ := decode_ok_admitted h
  obtain ⟨desc, hdesc⟩ := Option.ne_none_iff_exists'.mp hadmitted
  rcases dispatch_class hdesc with ⟨w, d, rfl, rfl⟩ | ⟨w, reg, rfl, rfl⟩ | ⟨w, rfl, rfl⟩
  · rcases bs with _ | ⟨m, bs⟩
    · rw [decode_rmReg_without_modRM hdesc] at h
      cases h
    · obtain ⟨rm, hr, hi⟩ := decodeRmReg_ok (by simpa only [decode, hdesc] using h)
      exact .inl ⟨w, d, m, bs, rm, rfl, hr, hi⟩
  · rw [decode_of_dispatch_immReg hdesc] at h
    obtain ⟨v, rfl, hi⟩ := decodeImmReg_ok h
    rw [opcodeReg_immRegOpcode] at hi
    exact .inr (.inl ⟨w, reg, v, rfl, hi⟩)
  · rcases bs with _ | ⟨m, bs⟩
    · rw [decode_immRm_without_modRM hdesc] at h
      cases h
    · rw [decode_of_dispatch_immRm hdesc] at h
      obtain ⟨rm, v, hr, hi⟩ := decodeImmRm_ok h
      exact .inr (.inr ⟨w, m, bs, rm, v, rfl, hr, hi⟩)

/-! ### Decoding and encoding are inverse (30_encoding.md sections 1 to 6) -/

/-- The resolver reads an operand back from the ModRM byte and the displacement bytes that encode it. -/
theorem resolveRm_modRMByte {rm : RmOperand} (h : rm.wf = true) (reg : RegCode) (rest : List Byte) :
    resolveRm (modOf (modRMByte rm.modField reg rm.rmField)) (rmOf (modRMByte rm.modField reg rm.rmField))
      (rm.dispBytes ++ rest) = some (rm, rest) := by
  rw [modOf_modRMByte, rmOf_modRMByte]
  exact resolveRm_dispBytes rm h rest

theorem decode_encode_append {i : Instr} (h : i.wf = true) (rest : List Byte) :
    decode (encode i ++ rest) = .ok (i, rest) := by
  induction i using instr_class_cases with
  | rmReg w d reg rm =>
    rw [wf_rmRegInstr] at h
    rw [encode_rmRegInstr, List.cons_append, List.cons_append,
      decode_rmReg_of_resolveRm (dispatch_rmRegOpcode w d) (resolveRm_modRMByte h reg rest), regOf_modRMByte]
  | immReg w reg v =>
    rw [encode_immRegInstr, List.cons_append, decode_of_dispatch_immReg (dispatch_immRegOpcode w reg),
      decodeImmReg_immBytes, opcodeReg_immRegOpcode]
  | immRm w regField rm v =>
    rw [wf_immRmInstr] at h
    rw [encode_immRmInstr, List.cons_append, List.cons_append, decode_of_dispatch_immRm (dispatch_immRmOpcode w),
      List.append_assoc, decodeImmRm_of_resolveRm (resolveRm_modRMByte h regField _), regOf_modRMByte]

theorem decode_encode {i : Instr} (h : i.wf = true) : decode (encode i) = .ok (i, []) := by
  have happ := decode_encode_append h []
  rwa [List.append_nil] at happ

/-- Settles O11: per class, the table finds the descriptor of the opcode byte, the fields of the ModRM byte are those
put in, and the resolver and the immediate read back their own bytes. -/
theorem decodeOfEncode : Obligations.DecodeOfEncode := by
  unfold Obligations.DecodeOfEncode
  exact fun _ rest hwf => decode_encode_append hwf rest

/-- What decodes is well-formed, and it takes its own encoding. -/
theorem wf_and_eq_encode_of_decode {bs rest : List Byte} {i : Instr} (h : decode bs = .ok (i, rest)) :
    i.wf = true ∧ bs = encode i ++ rest := by
  rcases decode_ok_class h with ⟨w, d, m, tail, rm, rfl, hr, rfl⟩ | ⟨w, reg, v, rfl, rfl⟩ |
    ⟨w, m, tail, rm, v, rfl, hr, rfl⟩
  · obtain ⟨hwf, hmod, hrm, rfl⟩ := resolveRm_some hr
    simp [hwf, encode_rmRegInstr, hmod, hrm]
  · simp [encode_immRegInstr]
  · obtain ⟨hwf, hmod, hrm, rfl⟩ := resolveRm_some hr
    simp [hwf, encode_immRmInstr, hmod, hrm]

/-- Settles O12: per class, the bytes taken are the opcode byte, the ModRM byte of the operand's fields and the
displacement and immediate bytes, which is the encoding. -/
theorem encodeOfDecode : Obligations.EncodeOfDecode := by
  unfold Obligations.EncodeOfDecode
  exact fun _ _ _ => wf_and_eq_encode_of_decode

/-! ### The length and the bytes needed (30_encoding.md R72, R82, R84) -/

/-- Settles O7: with the bytes there the resolver answers, and what it answers and takes is what `resolveRm_some` says. -/
theorem resolverTakesDispLenBytes : Obligations.ResolverTakesDispLenBytes := by
  unfold Obligations.ResolverTakesDispLenBytes
  intro mod rm bs
  refine ⟨fun hle => ?_, resolveRm_of_lt_dispLen⟩
  obtain ⟨o, rest, hr⟩ := resolveRm_of_dispLen_le hle
  obtain ⟨hwf, hmod, hrm, -⟩ := resolveRm_some hr
  obtain ⟨front, hfront, rfl⟩ := resolveRm_bytes hr
  exact ⟨o, by rw [hr, ← hfront, List.drop_left], hwf, hmod, hrm⟩

/-- The decoded instruction has the length its descriptor gives for the byte after the opcode. -/
theorem length_of_decode {b0 m : Byte} {bs rest : List Byte} {i : Instr} {desc : Descriptor}
    (hdesc : dispatch b0 = some desc) (h : decode (b0 :: m :: bs) = .ok (i, rest)) :
    i.length = desc.length (modOf m) (rmOf m) := by
  rcases decode_ok_class h with ⟨w, d, m', tail, rm, hbs, hr, rfl⟩ | ⟨w, reg, v, hbs, rfl⟩ |
    ⟨w, m', tail, rm, v, hbs, hr, rfl⟩
  · cases hbs
    rw [dispatch_rmRegOpcode] at hdesc
    cases hdesc
    rw [rmRegInstr_length, resolveRm_dispLength hr, Descriptor.length]
  · obtain ⟨rfl, -⟩ := List.cons.inj hbs
    rw [dispatch_immRegOpcode] at hdesc
    cases hdesc
    rw [immRegInstr_length, Descriptor.length]
  · cases hbs
    rw [dispatch_immRmOpcode] at hdesc
    cases hdesc
    rw [immRmInstr_length, resolveRm_dispLength hr, Descriptor.length]

theorem bytes_taken_of_decode {bs rest : List Byte} {i : Instr} (h : decode bs = .ok (i, rest)) :
    bs.length = i.length + rest.length := by
  obtain ⟨hwf, rfl⟩ := wf_and_eq_encode_of_decode h
  rw [List.length_append, encode_length hwf]

/-- Settles O13: the descriptor's length, the encoding's length, and the bounds of every instruction. -/
theorem decodedLengthFollowsDescriptor : Obligations.DecodedLengthFollowsDescriptor := by
  unfold Obligations.DecodedLengthFollowsDescriptor
  exact fun _ _ _ _ i _ hdesc h =>
    ⟨length_of_decode hdesc h, bytes_taken_of_decode h, two_le_length i, length_le_six i⟩

/-- With an admitted first byte, its ModRM byte where one is needed, and as many bytes as the descriptor's length says,
decoding succeeds. -/
theorem decode_of_length_le {b0 : Byte} {tail : List Byte} {desc : Descriptor} (hdesc : dispatch b0 = some desc)
    (hmodRM : desc.hasModRM = true → tail ≠ [])
    (hle : desc.length (modOf (tail.headD 0)) (rmOf (tail.headD 0)) ≤ (b0 :: tail).length) :
    ∃ i rest, decode (b0 :: tail) = .ok (i, rest) := by
  rcases dispatch_class hdesc with ⟨w, d, rfl, rfl⟩ | ⟨w, reg, rfl, rfl⟩ | ⟨w, rfl, rfl⟩
  · obtain ⟨m, bs, rfl⟩ := List.exists_cons_of_ne_nil (hmodRM rfl)
    simp only [Descriptor.length, List.headD_cons, List.length_cons] at hle
    obtain ⟨rm, rest, hr⟩ := resolveRm_of_dispLen_le (by omega : dispLen (modOf m) (rmOf m) ≤ bs.length)
    exact ⟨_, rest, decode_rmReg_of_resolveRm hdesc hr⟩
  · simp only [Descriptor.length, List.length_cons] at hle
    obtain ⟨v, rest, rfl⟩ := exists_immBytes_append (by omega : immLen w ≤ tail.length)
    exact ⟨_, rest, by rw [decode_of_dispatch_immReg hdesc, decodeImmReg_immBytes]⟩
  · obtain ⟨m, bs, rfl⟩ := List.exists_cons_of_ne_nil (hmodRM rfl)
    simp only [Descriptor.length, List.headD_cons, List.length_cons] at hle
    obtain ⟨rm, v, rest, hr⟩ := resolveRm_of_dispLen_add_immLen_le
      (by omega : dispLen (modOf m) (rmOf m) + immLen w ≤ bs.length)
    exact ⟨_, rest, by rw [decode_of_dispatch_immRm hdesc, decodeImmRm_of_resolveRm hr]⟩

/-- Settles O14: a decoded sequence has its own length's bytes, at least two, so the byte after the opcode is there; the
other direction is the lemma above. -/
theorem decodeSucceedsIffBytesSuffice : Obligations.DecodeSucceedsIffBytesSuffice := by
  unfold Obligations.DecodeSucceedsIffBytesSuffice
  intro bs
  constructor
  · rintro ⟨i, rest, h⟩
    have htaken := bytes_taken_of_decode h
    have htwo := two_le_length i
    rcases bs with _ | ⟨b0, _ | ⟨m, bs⟩⟩
    · simp only [List.length_nil] at htaken
      omega
    · simp only [List.length_cons, List.length_nil] at htaken
      omega
    · obtain ⟨b, tail, hbs, hadmitted⟩ := decode_ok_admitted h
      cases hbs
      obtain ⟨desc, hdesc⟩ := Option.ne_none_iff_exists'.mp hadmitted
      refine ⟨b0, m :: bs, desc, rfl, hdesc, fun _ => List.cons_ne_nil m bs, ?_⟩
      rw [List.headD_cons, ← length_of_decode hdesc h]
      omega
  · rintro ⟨b0, tail, desc, rfl, hdesc, hmodRM, hle⟩
    exact decode_of_length_le hdesc hmodRM hle

/-- Settles O10: the decoder evaluates on each sample. -/
theorem sampleWordsDecode : Obligations.SampleWordsDecode := by
  unfold Obligations.SampleWordsDecode
  exact ⟨rfl, rfl, rfl, rfl, rfl, rfl, rfl, rfl⟩

/-! ### The operands of a record (30_encoding.md R59-R63, R77, R98) -/

/-- A sign-extended byte is recovered from its low half. -/
@[simp] theorem setWidth_sext16 (d : Byte) : (sext16 d).setWidth 8 = d := by
  ext i hi
  simp [sext16, BitVec.getElem_signExtend, hi, Nat.lt_trans hi (by decide : 8 < 16)]

theorem operand_wf {rm : RmOperand} (h : rm.wf = true) (w : Width) (size : SizeKw) :
    Operand.wf (rm.operand w size) = true := by
  cases rm with
  | reg code => rfl
  | direct addr => rfl
  | noDisp base => cases base <;> simp_all [RmOperand.wf, RmOperand.operand, Operand.wf]
  | disp8 base d =>
    simp only [RmOperand.wf] at h
    simp [RmOperand.operand, Operand.wf, h]
  | disp16 base d => exact h

/-- A memory operand carries the size keyword it was given. -/
theorem size_of_operand_eq_mem {rm : RmOperand} {w : Width} {size size' : SizeKw} {base : EaBase} {disp : Disp}
    (h : rm.operand w size = .mem base disp size') : size' = size := by
  cases rm <;> cases h <;> rfl

theorem immOperand_wf (w : Width) (v : Immediate w) : Operand.wf (immOperand w v) = true := by
  cases w <;> rfl

theorem immOperand_ne_mem (w : Width) (v : Immediate w) (base : EaBase) (disp : Disp) (size : SizeKw) :
    immOperand w v ≠ .mem base disp size := by
  cases w <;> nofun

/-- The size keyword of a memory destination (30_encoding.md R98). -/
def destinationSize : Instr → SizeKw
  | .movRm8Imm8 _ _ _ => .byte
  | .movRm16Imm16 _ _ _ => .word
  | _ => .none

@[simp] theorem destinationSize_rmRegInstr (w : Width) (d : Bool) (reg : RegCode) (rm : RmOperand) :
    destinationSize (rmRegInstr w d reg rm) = .none := by
  cases w <;> cases d <;> rfl

@[simp] theorem destinationSize_immRmInstr (w : Width) (regField : RegCode) (rm : RmOperand) (v : Immediate w) :
    destinationSize (immRmInstr w regField rm v) = immRmSize w := by
  cases w <;> rfl

theorem destinationSize_eq_none {i : Instr} (h8 : ∀ f rm v, i ≠ .movRm8Imm8 f rm v)
    (h16 : ∀ f rm v, i ≠ .movRm16Imm16 f rm v) : destinationSize i = .none := by
  cases i with
  | movRm8Imm8 f rm v => exact absurd rfl (h8 f rm v)
  | movRm16Imm16 f rm v => exact absurd rfl (h16 f rm v)
  | _ => rfl

/-- A well-formed instruction has two operands a record can hold; a memory operand carries the destination's size as
destination and none as source. -/
theorem operands_of_wf {i : Instr} (h : i.wf = true) :
    ∃ dst src, i.operands = [dst, src] ∧ Operand.wf dst = true ∧ Operand.wf src = true ∧
      (∀ base disp size, src = .mem base disp size → size = .none) ∧
      (∀ base disp size, dst = .mem base disp size → size = destinationSize i) := by
  induction i using instr_class_cases with
  | rmReg w d reg rm =>
    rw [wf_rmRegInstr] at h
    have hrm := operand_wf h w .none
    rw [rmRegInstr_operands, destinationSize_rmRegInstr]
    cases d with
    | false => exact ⟨_, _, rfl, hrm, rfl, nofun, fun _ _ _ => size_of_operand_eq_mem⟩
    | true => exact ⟨_, _, rfl, rfl, hrm, fun _ _ _ => size_of_operand_eq_mem, nofun⟩
  | immReg w reg v =>
    exact ⟨_, _, immRegInstr_operands w reg v, rfl, immOperand_wf w v,
      fun _ _ _ hmem => absurd hmem (immOperand_ne_mem w v _ _ _), nofun⟩
  | immRm w regField rm v =>
    rw [wf_immRmInstr] at h
    rw [destinationSize_immRmInstr]
    exact ⟨_, _, immRmInstr_operands w regField rm v, operand_wf h w _, immOperand_wf w v,
      fun _ _ _ hmem => absurd hmem (immOperand_ne_mem w v _ _ _), fun _ _ _ => size_of_operand_eq_mem⟩

/-- Settles O15: the lemma above, with the destination's size read off for each constructor. -/
theorem operandsAreRecordOperands : Obligations.OperandsAreRecordOperands := by
  unfold Obligations.OperandsAreRecordOperands
  intro i hwf
  obtain ⟨dst, src, hoperands, hdst, hsrc, hsrcSize, hdstSize⟩ := operands_of_wf hwf
  refine ⟨dst, src, hoperands, hdst, hsrc, hsrcSize, fun base disp size hmem => ?_⟩
  rw [hdstSize base disp size hmem]
  refine ⟨?_, ?_, destinationSize_eq_none⟩
  · rintro ⟨f, rm, v, rfl⟩
    rfl
  · rintro ⟨f, rm, v, rfl⟩
    rfl

end Sys2Proof
end

section
/-! SUPPORT. The meanings once more, by their refusal, and what a step emits: facts the statements about steps share.
Proofs of the statements of 30_encoding.md about a step (R84, R85). -/

namespace Sys2Proof.Machine

/-! ### The bytes of an instruction in the stream -/

/-- A window that begins with a slice. -/
theorem window_of_slice {s : State} {a j : Nat} {raw : List Byte} (h : s.slice a j = some raw) (k : Nat) :
    s.window a (j + k) = raw ++ s.window (a + j) k := by
  induction j generalizing a raw with
  | zero =>
    cases h
    rw [Nat.zero_add, Nat.add_zero, List.nil_append]
  | succ j ih =>
    cases hb : s.memRead a with
    | none => simp [State.slice, hb] at h
    | some b =>
      simp only [State.slice, hb, Option.map_eq_some_iff] at h
      obtain ⟨rest, hrest, rfl⟩ := h
      rw [Nat.succ_add, window_succ_of_memRead hb, ih hrest, List.cons_append, Nat.add_assoc, Nat.add_comm 1 j]

/-- The bytes looked at begin with any instruction-sized slice at the cursor. -/
theorem fetchBytes_of_slice {s : State} {k : Nat} {raw : List Byte} (h : s.slice s.cursor k = some raw) (hk : k ≤ 6) :
    ∃ rest, s.fetchBytes = raw ++ rest := by
  refine ⟨s.window (s.cursor + k) (6 - k), ?_⟩
  rw [← window_of_slice h, Nat.add_sub_cancel' hk]
  rfl

/-- Where bytes of the stream at the cursor decode, the bytes looked at decode to the same instruction. -/
theorem decode_fetchBytes_of_slice {s : State} {k : Nat} {bs rest : List Byte} {i : Instr}
    (hslice : s.slice s.cursor k = some bs) (h : decode bs = .ok (i, rest)) :
    ∃ rest', decode s.fetchBytes = .ok (i, rest') := by
  obtain ⟨hwf, rfl⟩ := wf_and_eq_encode_of_decode h
  have hlen := slice_length hslice
  rw [List.length_append, encode_length hwf] at hlen
  have hfront := slice_take hslice i.length (by omega)
  rw [← encode_length hwf, List.take_left, encode_length hwf] at hfront
  obtain ⟨tail, hfetch⟩ := fetchBytes_of_slice hfront (length_le_six i)
  exact ⟨tail, by rw [hfetch, decode_encode_append hwf]⟩

/-- The stream's bytes under a decoded instruction are its encoding. -/
theorem slice_eq_encode {s : State} {i : Instr} {rest raw : List Byte} (hd : decode s.fetchBytes = .ok (i, rest))
    (hraw : s.slice s.cursor i.length = some raw) : i.wf = true ∧ raw = encode i := by
  obtain ⟨hwf, hbytes⟩ := wf_and_eq_encode_of_decode hd
  obtain ⟨tail, hfetch⟩ := fetchBytes_of_slice hraw (length_le_six i)
  refine ⟨hwf, List.append_inj_left (hfetch.symm.trans hbytes) ?_⟩
  rw [slice_length hraw, encode_length hwf]

/-- Settles O16: the step decodes the bytes it looks at, and those begin with the same instruction. -/
theorem stepRunsDecodedInstruction : Obligations.StepRunsDecodedInstruction := by
  unfold Obligations.StepRunsDecodedInstruction
  intro s k bs i rest _ hready hslice hd
  obtain ⟨rest', hfetch⟩ := decode_fetchBytes_of_slice hslice hd
  exact step_of_decode_ok hready hfetch

/-! ### The spec's `decodeAt` by class (30_encoding.md R84) -/

section

variable {s : State} {c : Nat} {b0 : Byte} (hb0 : s.memRead c = some b0)
include hb0

theorem decodeAt_unassigned (hdesc : dispatch b0 = none) :
    s.decodeAt c = some (.fault .unassignedOpcode c b0 (s.n - c)) := by
  simp [State.decodeAt, hb0, hdesc]

theorem decodeAt_immReg {w : Width} (hdesc : dispatch b0 = some ⟨.immReg, w, false, false, .mov⟩) :
    s.decodeAt c =
      if s.n < c + (1 + immLen w) then some (.fault .truncatedInstruction c b0 (s.n - c))
      else (s.immAt w (c + 1)).bind fun imm => s.okRecord c (1 + immLen w) [.reg w (opcodeReg b0), imm] := by
  simp [State.decodeAt, hb0, hdesc, opcodeReg]

/-- The stream ends before the ModRM byte that the descriptor asks for. -/
theorem decodeAt_without_modRM {desc : Descriptor} (hdesc : dispatch b0 = some desc) (hcls : desc.cls ≠ .immReg)
    (hlt : s.n < c + 2) : s.decodeAt c = some (.fault .truncatedInstruction c b0 (s.n - c)) := by
  obtain ⟨cls, w, d, hasModRM, mnemonic⟩ := desc
  cases cls with
  | immReg => exact absurd rfl hcls
  | rmReg => simp [State.decodeAt, hb0, hdesc, hlt]
  | immRm => simp [State.decodeAt, hb0, hdesc, hlt]

variable {m : Byte} (hm : s.memRead (c + 1) = some m)
include hm

theorem decodeAt_rmReg {w : Width} {d : Bool} (hdesc : dispatch b0 = some ⟨.rmReg, w, d, true, .mov⟩) :
    s.decodeAt c =
      if s.n < c + (2 + dispLen (modOf m) (rmOf m)) then some (.fault .truncatedInstruction c b0 (s.n - c))
      else s.decodeRmRegAt ⟨.rmReg, w, d, true, .mov⟩ c (2 + dispLen (modOf m) (rmOf m)) m := by
  have hmodRM : ¬ s.n < c + 2 := Nat.not_lt.mpr (memRead_lt hm)
  simp [State.decodeAt, hb0, hdesc, hmodRM, hm]

variable {w : Width} (hdesc : dispatch b0 = some ⟨.immRm, w, false, true, .mov⟩)
include hdesc

/-- The refusal checks of `decodeAt` are those of `immRmRefusal`, in the same order. -/
theorem decodeAt_immRm_of_refusal {r : RefuseReason}
    (hr : immRmRefusal s.params (regOf m) (modOf m) (rmOf m) = some r) : s.decodeAt c = some (.refuse r c) := by
  have hmodRM : ¬ s.n < c + 2 := Nat.not_lt.mpr (memRead_lt hm)
  unfold immRmRefusal at hr
  simp only [State.decodeAt, hb0, hdesc, hm, Option.bind_eq_bind, Option.bind_some, gt_iff_lt, if_neg hmodRM]
  split at hr
  · next hreg =>
    cases hr
    exact if_pos hreg
  · next hreg =>
    split at hr
    · next hdisp =>
      cases hr
      exact (if_neg hreg).trans (if_pos hdisp)
    · cases hr

theorem decodeAt_immRm_of_passed (hr : immRmRefusal s.params (regOf m) (modOf m) (rmOf m) = none) :
    s.decodeAt c =
      if s.n < c + (2 + dispLen (modOf m) (rmOf m) + immLen w) then
        some (.fault .truncatedInstruction c b0 (s.n - c))
      else
        s.decodeImmRmAt ⟨.immRm, w, false, true, .mov⟩ c (2 + dispLen (modOf m) (rmOf m) + immLen w) m := by
  have hmodRM : ¬ s.n < c + 2 := Nat.not_lt.mpr (memRead_lt hm)
  unfold immRmRefusal at hr
  simp only [State.decodeAt, hb0, hdesc, hm, Option.bind_eq_bind, Option.bind_some, gt_iff_lt, if_neg hmodRM]
  split at hr
  · cases hr
  · next hreg =>
    split at hr
    · cases hr
    · next hdisp => exact (if_neg hreg).trans (if_neg hdisp)

end

theorem okRecord_of_slice {s : State} {c len : Nat} {raw : List Byte} (h : s.slice c len = some raw)
    (ops : List Operand) : s.okRecord c len ops = some (.ok ⟨c, len, raw, .mov, ops⟩) := by
  simp [State.okRecord, h]

theorem decodeRmRegAt_of_resolveRM {s : State} {c len : Nat} {m : Byte} {w : Width} {d : Bool} {raw : List Byte}
    {rmop : Operand} (hrmop : s.resolveRM (c + 2) (modOf m) (rmOf m) w .none = some rmop)
    (hraw : s.slice c len = some raw) :
    s.decodeRmRegAt ⟨.rmReg, w, d, true, .mov⟩ c len m =
      some (.ok ⟨c, len, raw, .mov, if d then [.reg w (regOf m), rmop] else [rmop, .reg w (regOf m)]⟩) := by
  simp [State.decodeRmRegAt, hrmop, okRecord_of_slice hraw]

theorem decodeImmRmAt_of_resolveRM {s : State} {c len : Nat} {m : Byte} {w : Width} {raw : List Byte}
    {rmop imm : Operand} (hrmop : s.resolveRM (c + 2) (modOf m) (rmOf m) w (immRmSize w) = some rmop)
    (himm : s.immAt w (c + 2 + dispLen (modOf m) (rmOf m)) = some imm) (hraw : s.slice c len = some raw) :
    s.decodeImmRmAt ⟨.immRm, w, false, true, .mov⟩ c len m = some (.ok ⟨c, len, raw, .mov, [rmop, imm]⟩) := by
  cases w <;> simp only [immRmSize] at hrmop <;>
    simp [State.decodeImmRmAt, hrmop, himm, okRecord_of_slice hraw]

/-! ### A step applies `decodeAt` (30_encoding.md R84) -/

/-- `decodeAt` is defined at the cursor, and the step is its outcome. -/
def AppliesDecodeAt (s : State) : Prop :=
  ∃ r, s.decodeAt s.cursor = some r ∧ step s = .next (s.applyOutcome r)

section

variable {s : State} {b0 : Byte} (hcomplete : s.StreamComplete) (hready : s.status = .ready)
  (hb0 : s.memRead s.cursor = some b0)
include hcomplete hready hb0

theorem appliesDecodeAt_immReg {w : Width} (hdesc : dispatch b0 = some ⟨.immReg, w, false, false, .mov⟩) :
    AppliesDecodeAt s := by
  have hdecodeAt := decodeAt_immReg hb0 hdesc
  rcases Nat.lt_or_ge s.n (s.cursor + (1 + immLen w)) with hlt | hle
  · rw [if_pos hlt] at hdecodeAt
    exact ⟨_, hdecodeAt, step_immReg_of_short hdesc hcomplete hready hb0 hlt⟩
  · obtain ⟨imm, raw, himm, hraw, hstep⟩ := step_immReg_of_complete hdesc hcomplete hready hb0 hle
    rw [if_neg (Nat.not_lt.mpr hle), himm, Option.bind_some, okRecord_of_slice hraw] at hdecodeAt
    exact ⟨_, hdecodeAt, hstep⟩

theorem appliesDecodeAt_rmReg {w : Width} {d : Bool} (hdesc : dispatch b0 = some ⟨.rmReg, w, d, true, .mov⟩) :
    AppliesDecodeAt s := by
  rcases Nat.lt_or_ge s.n (s.cursor + 2) with hshort | hmodRM
  · exact ⟨_, decodeAt_without_modRM hb0 hdesc nofun hshort,
      step_rmReg_without_modRM hdesc hcomplete hready hb0 hshort⟩
  obtain ⟨m, hm⟩ := memRead_of_complete hcomplete (a := s.cursor + 1) (by omega)
  have hdecodeAt := decodeAt_rmReg hb0 hm hdesc
  rcases Nat.lt_or_ge s.n (s.cursor + (2 + dispLen (modOf m) (rmOf m))) with hlt | hle
  · rw [if_pos hlt] at hdecodeAt
    exact ⟨_, hdecodeAt, step_rmReg_of_short hdesc hcomplete hready hb0 hm hlt⟩
  · obtain ⟨rmop, raw, hrmop, hraw, hstep⟩ := step_rmReg_of_complete hdesc hcomplete hready hb0 hm hle
    rw [if_neg (Nat.not_lt.mpr hle), decodeRmRegAt_of_resolveRM hrmop hraw] at hdecodeAt
    exact ⟨_, hdecodeAt, hstep⟩

theorem appliesDecodeAt_immRm {w : Width} (hdesc : dispatch b0 = some ⟨.immRm, w, false, true, .mov⟩) :
    AppliesDecodeAt s := by
  rcases Nat.lt_or_ge s.n (s.cursor + 2) with hshort | hmodRM
  · exact ⟨_, decodeAt_without_modRM hb0 hdesc nofun hshort,
      step_immRm_without_modRM hdesc hcomplete hready hb0 hshort⟩
  obtain ⟨m, hm⟩ := memRead_of_complete hcomplete (a := s.cursor + 1) (by omega)
  cases hr : immRmRefusal s.params (regOf m) (modOf m) (rmOf m) with
  | some r => exact ⟨_, decodeAt_immRm_of_refusal hb0 hm hdesc hr, step_immRm_of_refusal hdesc hready hb0 hm hr⟩
  | none =>
    have hdecodeAt := decodeAt_immRm_of_passed hb0 hm hdesc hr
    rcases Nat.lt_or_ge s.n (s.cursor + (2 + dispLen (modOf m) (rmOf m) + immLen w)) with hlt | hle
    · rw [if_pos hlt] at hdecodeAt
      exact ⟨_, hdecodeAt, step_immRm_of_short hdesc hcomplete hready hb0 hm hr hlt⟩
    · obtain ⟨rmop, imm, raw, hrmop, himm, hraw, hstep⟩ :=
        step_immRm_of_complete hdesc hcomplete hready hb0 hm hr hle
      rw [if_neg (Nat.not_lt.mpr hle), decodeImmRmAt_of_resolveRM hrmop himm hraw] at hdecodeAt
      exact ⟨_, hdecodeAt, hstep⟩

end

/-- Settles O17: the descriptor's class decides which family the step belongs to, and each family's step is the
outcome `decodeAt` computes along the same checks. -/
theorem stepAppliesDecodeAt : Obligations.StepAppliesDecodeAt := by
  unfold Obligations.StepAppliesDecodeAt
  intro s hcomplete hready hinside
  obtain ⟨b0, hb0⟩ := memRead_of_complete hcomplete hinside
  cases hdesc : dispatch b0 with
  | none => exact ⟨_, decodeAt_unassigned hb0 hdesc, unassignedOpcodeFaults s b0 hready hb0 hdesc⟩
  | some desc =>
    rcases dispatch_class hdesc with ⟨w, d, -, rfl⟩ | ⟨w, reg, -, rfl⟩ | ⟨w, -, rfl⟩
    · exact appliesDecodeAt_rmReg hcomplete hready hb0 hdesc
    · exact appliesDecodeAt_immReg hcomplete hready hb0 hdesc
    · exact appliesDecodeAt_immRm hcomplete hready hb0 hdesc

end Sys2Proof.Machine
end

section
/-! SUPPORT. Proofs of the statements about the meanings: where each completes, is refused or is cut off
(40_mov_rm_reg.md, 41_mov_imm_reg.md, 42_mov_imm_rm.md; 60_exceptions.md R119), and their frame (10_state.md R17, R25). -/

namespace Sys2Proof.Machine

/-! ### A meaning by its refusal -/

/-- The refusal the parameters give an instruction: C6 and C7 alone have one (42_mov_imm_rm.md R111, R112). -/
def instrRefusal (p : Params) : Instr → Option RefuseReason
  | .movRm8Imm8 regField rm _ => immRmRefusal p regField rm.modField rm.rmField
  | .movRm16Imm16 regField rm _ => immRmRefusal p regField rm.modField rm.rmField
  | _ => none

theorem exec_of_refusal {s : State} {i : Instr} {r : RefuseReason} (h : instrRefusal s.params i = some r) :
    exec i s = .next (s.takeRefusal r) := by
  cases i with
  | movRm8Imm8 regField rm imm => exact emitUnlessRefused_eq_next.mpr (.inl ⟨r, h, rfl⟩)
  | movRm16Imm16 regField rm imm => exact emitUnlessRefused_eq_next.mpr (.inl ⟨r, h, rfl⟩)
  | _ => cases h

/-- Without a refusal the meaning is the bound check and the record. -/
theorem exec_of_no_refusal {s : State} {i : Instr} (h : instrRefusal s.params i = none) :
    exec i s = s.emitDecoded i := by
  have passed : ∀ (regField : RegCode) (rm : RmOperand) (i : Instr),
      immRmRefusal s.params regField rm.modField rm.rmField = none →
      s.emitUnlessRefused regField rm i = s.emitDecoded i := by
    intro regField rm i hnone
    rw [State.emitUnlessRefused, hnone]
  cases i with
  | movRm8Imm8 regField rm imm => exact passed regField rm _ h
  | movRm16Imm16 regField rm imm => exact passed regField rm _ h
  | _ => rfl

theorem instrRefusal_of_admitted {p : Params} {i : Instr}
    (h8 : ∀ f rm v, i = .movRm8Imm8 f rm v → ImmRmAdmitted p f rm)
    (h16 : ∀ f rm v, i = .movRm16Imm16 f rm v → ImmRmAdmitted p f rm) : instrRefusal p i = none := by
  cases i with
  | movRm8Imm8 f rm v =>
    obtain ⟨hreg, hdisp⟩ := h8 f rm v rfl
    exact immRmRefusal_none hreg hdisp
  | movRm16Imm16 f rm v =>
    obtain ⟨hreg, hdisp⟩ := h16 f rm v rfl
    exact immRmRefusal_none hreg hdisp
  | _ => rfl

/-! ### Completion -/

/-- An instruction that is not refused and lies in the stream whole emits its record. -/
theorem exec_of_slice {s : State} {i : Instr} {len : Nat} {raw : List Byte} (hlen : i.length = len)
    (hpassed : instrRefusal s.params i = none) (hle : s.cursor + len ≤ s.n) (hraw : s.slice s.cursor len = some raw) :
    exec i s = .next (s.emit ⟨s.cursor, len, raw, .mov, i.operands⟩) := by
  subst hlen
  rw [exec_of_no_refusal hpassed]
  exact emitDecoded_eq_next.mpr (.inr ⟨hle, raw, hraw, rfl⟩)

/-- Settles O32: neither form is refused, and both have the one length. -/
theorem movToRmFromRegCompletes : Obligations.MovToRmFromRegCompletes := by
  unfold Obligations.MovToRmFromRegCompletes
  intro s reg rm hcomplete hle
  obtain ⟨raw, hraw⟩ := slice_of_complete hcomplete hle
  exact ⟨raw, hraw, exec_of_slice rfl rfl hle hraw, exec_of_slice rfl rfl hle hraw⟩

/-- Settles O33: neither form is refused, and both have the one length. -/
theorem movToRegFromRmCompletes : Obligations.MovToRegFromRmCompletes := by
  unfold Obligations.MovToRegFromRmCompletes
  intro s reg rm hcomplete hle
  obtain ⟨raw, hraw⟩ := slice_of_complete hcomplete hle
  exact ⟨raw, hraw, exec_of_slice rfl rfl hle hraw, exec_of_slice rfl rfl hle hraw⟩

/-- Settles O34: the form is not refused and takes two bytes. -/
theorem movByteImmediateToRegCompletes : Obligations.MovByteImmediateToRegCompletes := by
  unfold Obligations.MovByteImmediateToRegCompletes
  intro s reg imm hcomplete hle
  obtain ⟨raw, hraw⟩ := slice_of_complete hcomplete hle
  exact ⟨raw, hraw, exec_of_slice rfl rfl hle hraw⟩

/-- Settles O35: the form is not refused and takes three bytes. -/
theorem movWordImmediateToRegCompletes : Obligations.MovWordImmediateToRegCompletes := by
  unfold Obligations.MovWordImmediateToRegCompletes
  intro s reg imm hcomplete hle
  obtain ⟨raw, hraw⟩ := slice_of_complete hcomplete hle
  exact ⟨raw, hraw, exec_of_slice rfl rfl hle hraw⟩

/-- Settles O36: an admitted form is not refused, and the immediate adds one or two bytes. -/
theorem movImmediateToRmCompletes : Obligations.MovImmediateToRmCompletes := by
  unfold Obligations.MovImmediateToRmCompletes
  intro s regField rm imm8 imm16 hcomplete ⟨hreg, hdisp⟩
  have hpassed := immRmRefusal_none hreg hdisp
  have hlen8 : (Instr.movRm8Imm8 regField rm imm8).length = 3 + rm.dispLength := by
    simp only [Instr.length, immLen]; omega
  have hlen16 : (Instr.movRm16Imm16 regField rm imm16).length = 4 + rm.dispLength := by
    simp only [Instr.length, immLen]; omega
  constructor
  · intro hle
    obtain ⟨raw, hraw⟩ := slice_of_complete hcomplete hle
    exact ⟨raw, hraw, exec_of_slice hlen8 hpassed hle hraw⟩
  · intro hle
    obtain ⟨raw, hraw⟩ := slice_of_complete hcomplete hle
    exact ⟨raw, hraw, exec_of_slice hlen16 hpassed hle hraw⟩

/-! ### Refusal and truncation -/

/-- The direct address alone has the fields mod = 0 and rm = 110b (30_encoding.md R71). -/
theorem direct_of_fields {rm : RmOperand} (hwf : rm.wf = true) (hmod : rm.modField = 0) (hrm : rm.rmField = 6) :
    ∃ a, rm = .direct a := by
  cases rm with
  | direct a => exact ⟨a, rfl⟩
  | noDisp base => cases base <;> simp_all [RmOperand.wf, RmOperand.rmField, EaBase.rmCode]
  | reg code => simp [RmOperand.modField] at hmod
  | disp8 base d => simp [RmOperand.modField] at hmod
  | disp16 base d => simp [RmOperand.modField] at hmod

/-- Settles O37: both forms ask `immRmRefusal` of the same fields, and only a direct address passes the second check. -/
theorem movImmediateToRmRefused : Obligations.MovImmediateToRmRefused := by
  unfold Obligations.MovImmediateToRmRefused
  intro s regField rm imm8 imm16
  constructor
  · intro hpolicy hreg
    exact ⟨exec_of_refusal (immRmRefusal_regField hpolicy hreg), exec_of_refusal (immRmRefusal_regField hpolicy hreg)⟩
  · intro hreg hrule hdirect hwf
    have hform : ¬ (rm.modField = 0 ∧ rm.rmField = 6) := fun ⟨hmod, hrm⟩ =>
      (direct_of_fields hwf hmod hrm).elim hdirect
    have hr := immRmRefusal_dispUndecided hreg hrule hform
    exact ⟨exec_of_refusal hr, exec_of_refusal hr⟩

/-- Settles O38: without a refusal the bound check comes first, and its fault is taken at the cursor. -/
theorem truncatedInstructionFaults : Obligations.TruncatedInstructionFaults := by
  unfold Obligations.TruncatedInstructionFaults
  intro s i b hb hlt h8 h16
  rw [exec_of_no_refusal (instrRefusal_of_admitted h8 h16)]
  exact emitDecoded_eq_next.mpr (.inl ⟨hlt, faultAtCursor_eq_next.mpr ⟨b, hb, rfl⟩⟩)

/-! ### Frames -/

/-- Settles O39: each of the three outcomes writes its own fields. -/
theorem execFrame : Obligations.ExecFrame := by
  unfold Obligations.ExecFrame
  intro i s t hexec
  rcases exec_cases hexec with ⟨r, -, -, -, -, rfl⟩ | ⟨-, b, -, rfl⟩ | ⟨-, raw, -, rfl⟩
  · exact ⟨rfl, rfl, rfl, fun _ => rfl, fun _ => ⟨rfl, rfl, rfl, rfl⟩, fun hne => absurd rfl hne,
      fun _ => ⟨rfl, rfl⟩, [], (List.append_nil _).symm, by decide⟩
  · exact ⟨rfl, rfl, rfl, fun _ => rfl, fun hne => absurd rfl hne, fun _ => rfl,
      fun _ => ⟨rfl, rfl⟩, [], (List.append_nil _).symm, by decide⟩
  · exact ⟨rfl, rfl, rfl, fun _ => rfl, fun _ => ⟨rfl, rfl, rfl, rfl⟩, fun _ => rfl,
      fun hended => (hended.elim (emit_status_ne_faulted s _) (emit_status_ne_refused s _)).elim, [_], rfl, by simp⟩

/-- The bound check and the record read the stream and the cursor alone. -/
theorem emitDecoded_with_params {s t : State} {i : Instr} (h : s.emitDecoded i = .next t) (p : Params) :
    State.emitDecoded i { s with params := p } = .next { t with params := p } := by
  rcases emitDecoded_eq_next.mp h with ⟨hlt, hfault⟩ | ⟨hle, raw, hraw, rfl⟩
  · obtain ⟨b, hb, rfl⟩ := faultAtCursor_eq_next.mp hfault
    exact emitDecoded_eq_next.mpr (.inl ⟨hlt, faultAtCursor_eq_next.mpr ⟨b, hb, rfl⟩⟩)
  · refine emitDecoded_eq_next.mpr (.inr ⟨hle, raw, ?_, rfl⟩)
    rw [← hraw]
    apply slice_congr <;> rfl

/-- Settles O40: the other six forms have no refusal under any parameters. -/
theorem parametersAffectImmRmOnly : Obligations.ParametersAffectImmRmOnly := by
  unfold Obligations.ParametersAffectImmRmOnly
  intro i s t p h8 h16 hexec
  have hpassed : ∀ p, instrRefusal p i = none := fun p =>
    instrRefusal_of_admitted (fun f rm v hi => absurd hi (h8 f rm v)) (fun f rm v hi => absurd hi (h16 f rm v))
  rw [exec_of_no_refusal (hpassed _)] at hexec ⊢
  exact emitDecoded_with_params hexec p

end Sys2Proof.Machine
end

section
/-! SUPPORT. Proofs of the statements about one step: where it refuses (10_state.md R31), what it emits (R20, R23, R29,
R32; 30_encoding.md R85), and the order of its checks (60_exceptions.md R123). -/

namespace Sys2Proof

/-- A truncated sequence that carries a ModRM byte is one of C6 or C7, with that byte second. -/
theorem decode_truncated_modRM {bs : List Byte} {m : Byte} (h : decode bs = .error (.truncated (some m))) :
    ∃ w tail, bs = immRmOpcode w :: m :: tail := by
  obtain ⟨-, b0, bs, rfl, hadmitted⟩ := decode_truncated h
  obtain ⟨desc, hdesc⟩ := Option.ne_none_iff_exists'.mp hadmitted
  rcases dispatch_class hdesc with ⟨w, d, rfl, rfl⟩ | ⟨w, reg, rfl, rfl⟩ | ⟨w, rfl, rfl⟩
  · rcases bs with _ | ⟨m', bs⟩
    · rw [decode_rmReg_without_modRM hdesc] at h
      cases h
    rcases Nat.lt_or_ge bs.length (dispLen (modOf m') (rmOf m')) with hlt | hle
    · rw [decode_rmReg_of_lt_dispLen hdesc hlt] at h
      cases h
    · obtain ⟨rm, rest, hr⟩ := resolveRm_of_dispLen_le hle
      rw [decode_rmReg_of_resolveRm hdesc hr] at h
      cases h
  · rw [decode_of_dispatch_immReg hdesc] at h
    rcases Nat.lt_or_ge bs.length (immLen w) with hlt | hle
    · rw [decodeImmReg_of_lt_immLen hlt] at h
      cases h
    · obtain ⟨v, tail, rfl⟩ := exists_immBytes_append hle
      rw [decodeImmReg_immBytes] at h
      cases h
  · rcases bs with _ | ⟨m', bs⟩
    · rw [decode_immRm_without_modRM hdesc] at h
      cases h
    rw [decode_of_dispatch_immRm hdesc] at h
    rcases Nat.lt_or_ge bs.length (dispLen (modOf m') (rmOf m') + immLen w) with hlt | hle
    · rw [decodeImmRm_of_short hlt] at h
      cases h
      exact ⟨w, bs, rfl⟩
    · obtain ⟨rm, v, tail, hr⟩ := resolveRm_of_dispLen_add_immLen_le hle
      rw [decodeImmRm_of_resolveRm hr] at h
      cases h

end Sys2Proof

namespace Sys2Proof.Machine

/-! ### A refusing step (10_state.md R31) -/

theorem step_of_decode_error {s : State} {e : DecodeError} (hready : s.status = .ready)
    (hd : decode s.fetchBytes = .error e) : step s = s.decodeFailed e := by
  simp only [step, hready, hd]

theorem faultAtCursor_status {s t : State} {k : FaultCode} (h : s.faultAtCursor k = .next t) : t.status = .faulted := by
  obtain ⟨b, -, rfl⟩ := faultAtCursor_eq_next.mp h
  rfl

/-- The bound check and the record never refuse. -/
theorem emitDecoded_status_ne_refused {s t : State} {i : Instr} (h : s.emitDecoded i = .next t) :
    t.status ≠ .refused := by
  rcases emitDecoded_eq_next.mp h with ⟨-, hfault⟩ | ⟨-, raw, -, rfl⟩
  · simp [faultAtCursor_status hfault]
  · exact emit_status_ne_refused s _

/-- Of the ways decoding fails, the one that carries a ModRM byte alone can end in a refusal. -/
theorem truncated_some_of_decodeFailed_refused {s t : State} {e : DecodeError} (h : s.decodeFailed e = .next t)
    (ht : t.status = .refused) : ∃ m, e = .truncated (some m) := by
  cases e with
  | noByte => cases h
  | unassigned => simp [faultAtCursor_status h] at ht
  | truncated modRM =>
    cases modRM with
    | none => simp [faultAtCursor_status (truncatedAtCursor_eq_next.mp h).2] at ht
    | some m => exact ⟨m, rfl⟩

theorem exec_immRegInstr (w : Width) (reg : RegCode) (v : Immediate w) (s : State) :
    exec (immRegInstr w reg v) s = s.emitDecoded (immRegInstr w reg v) := by
  cases w <;> rfl

/-- A step refuses at an opcode byte of class IMM_RM only. -/
theorem memRead_of_step_refused {s t : State} (hready : s.status = .ready) (hstep : step s = .next t)
    (ht : t.status = .refused) : ∃ w, s.memRead s.cursor = some (immRmOpcode w) := by
  cases hd : decode s.fetchBytes with
  | error e =>
    rw [step_of_decode_error hready hd] at hstep
    obtain ⟨m, rfl⟩ := truncated_some_of_decodeFailed_refused hstep ht
    obtain ⟨w, tail, hbytes⟩ := decode_truncated_modRM hd
    exact ⟨w, window_cons hbytes⟩
  | ok decoded =>
    rw [step_of_decode_ok hready hd] at hstep
    rcases decode_ok_class hd with ⟨w, d, m, tail, rm, -, -, hi⟩ | ⟨w, reg, v, -, hi⟩ |
      ⟨w, m, tail, rm, v, hbytes, -, -⟩
    · rw [hi, exec_rmRegInstr] at hstep
      exact absurd ht (emitDecoded_status_ne_refused hstep)
    · rw [hi, exec_immRegInstr] at hstep
      exact absurd ht (emitDecoded_status_ne_refused hstep)
    · exact ⟨w, window_cons hbytes⟩

theorem immRmRefusal_default (reg : RegCode) (mod : ModField) (rm : RegCode) :
    immRmRefusal Params.default reg mod rm = none :=
  immRmRefusal_none (.inl rfl) (.inl rfl)

/-- A step that ends REFUSED has taken a refusal that its parameters give. -/
theorem step_refused {s t : State} (hready : s.status = .ready) (hstep : step s = .next t) (ht : t.status = .refused) :
    ∃ r reg mod rm, immRmRefusal s.params reg mod rm = some r ∧ t = s.takeRefusal r := by
  rcases step_cases hstep with ⟨hnot, -⟩ | ⟨-, hemit | hunassigned | htruncated | hrefused⟩
  · exact absurd hready hnot
  · obtain ⟨i, rest, raw, -, -, -, rfl⟩ := hemit
    exact absurd ht (emit_status_ne_refused s _)
  · obtain ⟨b, -, -, rfl⟩ := hunassigned
    cases ht
  · obtain ⟨b, -, -, -, rfl⟩ := htruncated
    cases ht
  · exact hrefused

/-- Settles O23: the refusal is one of `immRmRefusal`, which is silent under the default parameters, and only C6 and C7
lead to it. -/
theorem refusingStepWritesReasonOnly : Obligations.RefusingStepWritesReasonOnly := by
  unfold Obligations.RefusingStepWritesReasonOnly
  intro s t hready hstep hrefused
  obtain ⟨r, reg, mod, rm, hr, ht⟩ := step_refused hready hstep hrefused
  refine ⟨⟨r, immRmRefusal_ne_none hr, ht⟩, ?opcode, ?params⟩
  case opcode =>
    obtain ⟨w, hb⟩ := memRead_of_step_refused hready hstep hrefused
    cases w with
    | w8 => exact .inl hb
    | w16 => exact .inr hb
  case params =>
    intro hdefault
    rw [hdefault, immRmRefusal_default] at hr
    cases hr

/-- Settles O26: a READY step refuses under non-default parameters only, and in any other status nothing changes. -/
theorem defaultParametersNeverRefuse : Obligations.DefaultParametersNeverRefuse := by
  unfold Obligations.DefaultParametersNeverRefuse
  intro s t hdefault hnot hstep hrefused
  rcases step_cases hstep with ⟨-, rfl⟩ | ⟨hready, -⟩
  · exact hnot hrefused
  · obtain ⟨-, -, hparams⟩ := refusingStepWritesReasonOnly s t hready hstep hrefused
    exact hparams hdefault

/-- Settles O27: each of the three statuses is an arm of `step` that answers the state itself. -/
theorem terminalStatesIgnoreStep : Obligations.TerminalStatesIgnoreStep := by
  unfold Obligations.TerminalStatesIgnoreStep
  intro s hended
  cases hs : s.status with
  | ready =>
    rw [hs] at hended
    cases hended
  | halted => simp only [step, hs]
  | faulted => simp only [step, hs]
  | refused => simp only [step, hs]

/-! ### An emitting step (10_state.md R20, R23, R29) -/

/-- A record a step may emit: it stands at the cursor inside the stream, has two operands, and holds the stream's
bytes. -/
structure RecordAtCursor (s : State) (rec : Record) : Prop where
  offset : rec.offset = s.cursor
  two_le_length : 2 ≤ rec.length
  length_le_six : rec.length ≤ 6
  operands : rec.operands.length = 2
  raw : s.slice s.cursor rec.length = some rec.raw
  inside : s.cursor + rec.length ≤ s.n

theorem operands_length (i : Instr) : i.operands.length = 2 := by
  cases i <;> rfl

/-- A step keeps CURSOR and OUT, or emits a record at the cursor. -/
theorem step_keeps_or_emits {s t : State} (h : step s = .next t) :
    (t.cursor = s.cursor ∧ t.out = s.out) ∨ ∃ rec, RecordAtCursor s rec ∧ t = s.emit rec := by
  rcases step_cases h with ⟨-, rfl⟩ | ⟨-, hemit | hunassigned | htruncated | hrefused⟩
  · exact .inl ⟨rfl, rfl⟩
  · obtain ⟨i, rest, raw, -, hle, hraw, rfl⟩ := hemit
    exact .inr ⟨_, ⟨rfl, two_le_length i, length_le_six i, operands_length i, hraw, hle⟩, rfl⟩
  · obtain ⟨b, -, -, rfl⟩ := hunassigned
    exact .inl ⟨rfl, rfl⟩
  · obtain ⟨b, -, -, -, rfl⟩ := htruncated
    exact .inl ⟨rfl, rfl⟩
  · obtain ⟨r, reg, mod, rm, -, rfl⟩ := hrefused
    exact .inl ⟨rfl, rfl⟩

/-- Settles O24: a step that changes OUT is not one that keeps it. -/
theorem emittingStepAppendsOneRecord : Obligations.EmittingStepAppendsOneRecord := by
  unfold Obligations.EmittingStepAppendsOneRecord
  intro s t hstep hout
  rcases step_keeps_or_emits hstep with ⟨-, hsame⟩ | ⟨rec, hrec, ht⟩
  · exact absurd hsame hout
  · exact ⟨rec, hrec.offset, hrec.two_le_length, hrec.length_le_six, hrec.operands, hrec.raw, hrec.inside, ht⟩

/-- Settles O29: an emitted record has a length of at least two. -/
theorem cursorAdvancesByRecordLengthOnly : Obligations.CursorAdvancesByRecordLengthOnly := by
  unfold Obligations.CursorAdvancesByRecordLengthOnly
  intro s t hstep
  rcases step_keeps_or_emits hstep with ⟨hcursor, hout⟩ | ⟨rec, hrec, rfl⟩
  · exact ⟨hcursor.ge, .inl ⟨hcursor, hout⟩⟩
  · have htwo := hrec.two_le_length
    refine ⟨Nat.le_add_right _ _, .inr ⟨rec, rfl, hrec.offset, rfl, ?_⟩⟩
    rw [emit_cursor]
    omega

/-! ### The record depends on its own bytes (30_encoding.md R85) -/

theorem emit_injective {s : State} {rec rec' : Record} (h : s.emit rec = s.emit rec') : rec = rec' := by
  have hout : s.out ++ [rec] = s.out ++ [rec'] := congrArg State.out h
  simpa using hout

/-- A slice that is not empty ends inside the stream. -/
theorem slice_inside {s : State} {a k : Nat} {raw : List Byte} (h : s.slice a k = some raw) (hk : 0 < k) :
    a + k ≤ s.n := by
  have hlast := slice_getElem h (k - 1) (by omega)
  rw [List.getElem?_eq_getElem (by rw [slice_length h]; omega)] at hlast
  have hlt := memRead_lt hlast
  omega

/-- A READY step that emits has decoded the instruction of the record, which its parameters do not refuse. -/
theorem step_emit_inversion {s : State} {rec : Record} (hready : s.status = .ready)
    (hstep : step s = .next (s.emit rec)) :
    ∃ i rest, decode s.fetchBytes = .ok (i, rest) ∧ instrRefusal s.params i = none ∧
      s.slice s.cursor i.length = some rec.raw ∧ rec = ⟨s.cursor, i.length, rec.raw, .mov, i.operands⟩ := by
  rcases step_cases hstep with ⟨hnot, -⟩ | ⟨-, hemit | hunassigned | htruncated | hrefused⟩
  · exact absurd hready hnot
  · obtain ⟨i, rest, raw, hd, -, hraw, heq⟩ := hemit
    obtain rfl := emit_injective heq
    refine ⟨i, rest, hd, ?_, hraw, rfl⟩
    cases hr : instrRefusal s.params i with
    | none => rfl
    | some r =>
      rw [step_of_decode_ok hready hd, exec_of_refusal hr] at hstep
      have hstatus := congrArg State.status (Host.Outcome.next.inj hstep)
      exact absurd hstatus.symm (emit_status_ne_refused s _)
  · obtain ⟨b, -, -, heq⟩ := hunassigned
    exact absurd (congrArg State.status heq) (emit_status_ne_faulted s rec)
  · obtain ⟨b, -, -, -, heq⟩ := htruncated
    exact absurd (congrArg State.status heq) (emit_status_ne_faulted s rec)
  · obtain ⟨r, reg, mod, rm, -, heq⟩ := hrefused
    exact absurd (congrArg State.status heq) (emit_status_ne_refused s rec)

/-- Settles O31: the record's bytes are the encoding of its instruction, so the other stream decodes to it too, and the
parameters, which are the same, do not refuse it. -/
theorem recordDependsOnItsOwnBytes : Obligations.RecordDependsOnItsOwnBytes := by
  unfold Obligations.RecordDependsOnItsOwnBytes
  intro s t rec _ htcomplete hsready htready hcursor hparams hstep hslice
  obtain ⟨i, rest, hd, hpassed, hraw, hrec⟩ := step_emit_inversion hsready hstep
  obtain ⟨hwf, hencode⟩ := slice_eq_encode hd hraw
  have hlen : rec.length = i.length := congrArg Record.length hrec
  rw [hlen, ← hcursor] at hslice
  rw [← hcursor] at hraw hrec
  have htraw : t.slice t.cursor i.length = some rec.raw := by
    rw [hslice, ← hraw, hcursor]
  have hdecode : decode rec.raw = .ok (i, []) := by
    rw [hencode]
    exact decode_encode hwf
  rw [stepRunsDecodedInstruction t i.length rec.raw i [] htcomplete htready htraw hdecode, hrec]
  have hinside := slice_inside htraw (Nat.lt_of_lt_of_le Nat.zero_lt_two (two_le_length i))
  exact exec_of_slice rfl (by rwa [hparams]) hinside htraw

/-! ### The order of the checks (60_exceptions.md R123) -/

/-- Settles O25: the opcode's descriptor first, then the ModRM byte's presence, then the two refusals in their order. -/
theorem checksRunInOrder : Obligations.ChecksRunInOrder := by
  unfold Obligations.ChecksRunInOrder
  intro s b0 hcomplete hready hb0
  refine ⟨?unassigned, ?immRm⟩
  case unassigned => exact fun hdesc => ⟨_, unassignedOpcodeFaults s b0 hready hb0 hdesc, rfl, rfl⟩
  case immRm =>
    intro hopcode
    obtain ⟨w, hdesc⟩ : ∃ w, dispatch b0 = some ⟨.immRm, w, false, true, .mov⟩ := by
      rcases hopcode with rfl | rfl
      · exact ⟨.w8, dispatch_C6⟩
      · exact ⟨.w16, dispatch_C7⟩
    refine ⟨fun hlast => ?_, fun m hm => ⟨?_, ?_⟩⟩
    · refine ⟨_, step_immRm_without_modRM hdesc hcomplete hready hb0 (by omega), rfl, rfl, ?_⟩
      rw [takeFault_faultAvail]
      omega
    · rintro ⟨hpolicy, hreg⟩
      exact ⟨_, step_immRm_of_refusal hdesc hready hb0 hm (immRmRefusal_regField hpolicy hreg), rfl, rfl⟩
    · rintro ⟨hpolicy, hrule, hform⟩
      exact ⟨_, step_immRm_of_refusal hdesc hready hb0 hm (immRmRefusal_dispUndecided (.inl hpolicy) hrule hform),
        rfl, rfl⟩

end Sys2Proof.Machine
end

section
/-! SUPPORT. Proofs of the statements about `RESET` (70_reset_and_hazards.md R136 to R140), the invariant and what it
gives (10_state.md R20 to R25; 20_memory.md R37, R41), and runs (10_state.md R33; 60_exceptions.md R122;
70_reset_and_hazards.md R154). -/

namespace Sys2Proof.Machine

/-! ### RESET (70_reset_and_hazards.md R136-R140) -/

/-- Settles O41: each register by its own law, START inside or at the end against START past it. -/
theorem resetSetsEveryRegister : Obligations.ResetSetsEveryRegister := by
  unfold Obligations.ResetSetsEveryRegister
  intro s body start
  refine ⟨_, rfl, afterReset_params _ _ _, afterReset_n _ _ _, afterReset_memRead _ _ _, afterReset_refuseReason _ _ _,
    afterReset_out _ _ _, fun hle => ?inside, fun hlt => ?pastEnd⟩
  case inside =>
    refine ⟨afterReset_cursor _ _ _ hle, afterReset_faultCode _ _ _ hle, afterReset_faultOffset _ _ _ hle,
      afterReset_faultByte _ _ _ hle, afterReset_faultAvail _ _ _ hle, fun hlt => ?_, fun heq => ?_⟩
    · rw [afterReset_status _ _ _ hle, if_pos hlt]
    · rw [afterReset_status _ _ _ hle, if_neg heq.not_lt]
  case pastEnd =>
    exact ⟨afterReset_past_end_cursor _ _ _ hlt, afterReset_past_end_status _ _ _ hlt,
      afterReset_past_end_faultCode _ _ _ hlt, afterReset_past_end_faultOffset _ _ _ hlt,
      afterReset_past_end_faultByte _ _ _ hlt, afterReset_past_end_faultAvail _ _ _ hlt⟩

theorem afterReset_streamComplete (p : Params) (body : List Byte) (start : Nat) :
    (State.afterReset p body start).StreamComplete := by
  rw [State.StreamComplete, afterReset_body, afterReset_n, Memory.ofBytes_offsets, List.range_eq_range']

section

variable (p : Params) {body : List Byte} {start : Nat} (hbound : body.length ≤ 2 ^ 31 - 1)
include hbound

/-- START past the end: the state holds the fault BAD_START_OFFSET at the stream end. -/
theorem afterReset_past_end_inv (hlt : body.length < start) : (State.afterReset p body start).Inv where
  stream_complete := afterReset_streamComplete p body start
  length_bounded := by rwa [afterReset_n]
  cursor_in_range := by rw [afterReset_past_end_cursor p body start hlt, afterReset_n]
  ready_inside := by simp [afterReset_past_end_status p body start hlt]
  halted_at_end := by simp [afterReset_past_end_status p body start hlt]
  faulted_iff := by simp [afterReset_past_end_status p body start hlt, afterReset_past_end_faultCode p body start hlt]
  refused_iff := by simp [afterReset_past_end_status p body start hlt]
  fault_registers := by
    unfold State.FaultRegistersOk
    rw [afterReset_past_end_faultCode p body start hlt]
    exact ⟨by rwa [afterReset_n, afterReset_past_end_faultOffset p body start hlt],
      afterReset_past_end_faultByte p body start hlt, afterReset_past_end_faultAvail p body start hlt,
      by rw [afterReset_past_end_cursor p body start hlt, afterReset_n], afterReset_out p body start⟩
  records := by simp

/-- START inside the stream or at its end: READY below N and HALTED at N, with the fault registers clear. -/
theorem afterReset_inside_inv (hle : start ≤ body.length) : (State.afterReset p body start).Inv where
  stream_complete := afterReset_streamComplete p body start
  length_bounded := by rwa [afterReset_n]
  cursor_in_range := by rwa [afterReset_cursor p body start hle, afterReset_n]
  ready_inside := by
    rw [afterReset_status p body start hle, afterReset_cursor p body start hle, afterReset_n]
    split
    · exact fun _ => ‹_›
    · nofun
  halted_at_end := by
    rw [afterReset_status p body start hle, afterReset_cursor p body start hle, afterReset_n]
    split
    · nofun
    · exact fun _ => by omega
  faulted_iff := by
    rw [afterReset_status p body start hle, afterReset_faultCode p body start hle]
    split <;> decide
  refused_iff := by
    rw [afterReset_status p body start hle, afterReset_refuseReason]
    split <;> decide
  fault_registers := by
    unfold State.FaultRegistersOk
    rw [afterReset_faultCode p body start hle]
    exact ⟨afterReset_faultOffset p body start hle, afterReset_faultByte p body start hle,
      afterReset_faultAvail p body start hle⟩
  records := by simp

end

/-- Every `RESET` of a stream of bounded length establishes the invariant (00_scope.md R7). -/
theorem afterReset_inv (p : Params) {body : List Byte} (start : Nat) (hbound : body.length ≤ 2 ^ 31 - 1) :
    (State.afterReset p body start).Inv :=
  (Nat.lt_or_ge body.length start).elim (afterReset_past_end_inv p hbound) (afterReset_inside_inv p hbound)

/-- Settles O43: the command is `State.afterReset`. -/
theorem resetEstablishesInvariant : Obligations.ResetEstablishesInvariant := by
  unfold Obligations.ResetEstablishesInvariant
  intro s t body start hbound hreset
  cases hreset
  exact afterReset_inv s.params start hbound

/-- Settles O42: `State.reset` is the reset of the empty body. -/
theorem invariantHoldsAtReset : Obligations.InvariantHoldsAtReset := by
  unfold Obligations.InvariantHoldsAtReset
  exact ⟨afterReset_inv Params.default (body := []) 0 (by decide), rfl⟩

/-! ### Every step keeps the invariant (10_state.md R20-R25) -/

/-- A record stays sound while the stream does. -/
theorem RecordOk.of_slice_eq {s t : State} {rec : Record} (h : RecordOk s rec)
    (hslice : ∀ a k, t.slice a k = s.slice a k) : RecordOk t rec :=
  ⟨(hslice _ _).trans h.raw_is_slice, h.decodes⟩

/-- The record of a decoded instruction is sound: its bytes are the instruction's encoding. -/
theorem recordOk_of_decode {s : State} {i : Instr} {rest raw : List Byte} (hd : decode s.fetchBytes = .ok (i, rest))
    (hraw : s.slice s.cursor i.length = some raw) : RecordOk s ⟨s.cursor, i.length, raw, .mov, i.operands⟩ := by
  obtain ⟨hwf, hencode⟩ := slice_eq_encode hd hraw
  exact ⟨hraw, i, hwf, by rw [hencode, decode_encode hwf], rfl, rfl⟩

section

variable {s : State} (h : s.Inv)
include h

/-- A READY state holds no refusal. -/
theorem refuseReason_of_inv_ready (hready : s.status = .ready) : s.refuseReason = .none := by
  by_contra hne
  have hrefused := h.refused_iff.mpr hne
  rw [hready] at hrefused
  cases hrefused

/-- A READY state holds no fault. -/
theorem faultRegisters_of_inv_ready (hready : s.status = .ready) :
    s.faultCode = .none ∧ s.faultOffset = 0 ∧ s.faultByte = 0x00 ∧ s.faultAvail = 0 := by
  have hcode : s.faultCode = .none := by
    by_contra hne
    have hfaulted := h.faulted_iff.mpr hne
    rw [hready] at hfaulted
    cases hfaulted
  have hregisters := h.fault_registers
  unfold State.FaultRegistersOk at hregisters
  rw [hcode] at hregisters
  exact ⟨hcode, hregisters⟩

/-- A fault of `STEP` keeps the invariant where its registers are as the code says. -/
theorem takeFault_inv (hready : s.status = .ready) {k : FaultCode} {o : Nat} {b : Byte} {a : Nat} (hk : k ≠ .none)
    (hregisters : (s.takeFault k o b a).FaultRegistersOk) : (s.takeFault k o b a).Inv where
  stream_complete := h.stream_complete
  length_bounded := h.length_bounded
  cursor_in_range := h.cursor_in_range
  ready_inside := nofun
  halted_at_end := nofun
  faulted_iff := by simp [hk]
  refused_iff := by simp [refuseReason_of_inv_ready h hready]
  fault_registers := hregisters
  records := fun rec hrec => (h.records rec hrec).of_slice_eq (takeFault_slice s k o b a)

theorem takeRefusal_inv (hready : s.status = .ready) {r : RefuseReason} (hr : r ≠ .none) : (s.takeRefusal r).Inv where
  stream_complete := h.stream_complete
  length_bounded := h.length_bounded
  cursor_in_range := h.cursor_in_range
  ready_inside := nofun
  halted_at_end := nofun
  faulted_iff := by
    obtain ⟨hcode, -⟩ := faultRegisters_of_inv_ready h hready
    simp [hcode]
  refused_iff := by simp [hr]
  fault_registers := h.fault_registers
  records := fun rec hrec => (h.records rec hrec).of_slice_eq (takeRefusal_slice s r)

/-- A sound record that ends inside the stream keeps the invariant. -/
theorem emit_inv (hready : s.status = .ready) {rec : Record} (hrec : RecordOk s rec)
    (hinside : s.cursor + rec.length ≤ s.n) : (s.emit rec).Inv where
  stream_complete := h.stream_complete
  length_bounded := h.length_bounded
  cursor_in_range := hinside
  ready_inside := by
    rw [emit_status, emit_cursor, emit_n]
    split
    · nofun
    · exact fun _ => by omega
  halted_at_end := by
    rw [emit_status, emit_cursor, emit_n]
    split
    · exact fun _ => ‹_›
    · nofun
  faulted_iff := by
    obtain ⟨hcode, -⟩ := faultRegisters_of_inv_ready h hready
    simp [hcode, emit_status_ne_faulted s rec, -emit_status]
  refused_iff := by
    simp [refuseReason_of_inv_ready h hready, emit_status_ne_refused s rec, -emit_status]
  fault_registers := by
    obtain ⟨hcode, hregisters⟩ := faultRegisters_of_inv_ready h hready
    unfold State.FaultRegistersOk
    rw [emit_faultCode, hcode]
    exact hregisters
  records := by
    rw [emit_out]
    intro rec' hmem
    rcases List.mem_append.mp hmem with hold | hnew
    · exact (h.records rec' hold).of_slice_eq (emit_slice s rec)
    · obtain rfl := List.mem_singleton.mp hnew
      exact hrec.of_slice_eq (emit_slice s rec')

end

theorem step_inv {s t : State} (h : s.Inv) (hstep : step s = .next t) : t.Inv := by
  rcases step_cases hstep with ⟨-, rfl⟩ | ⟨hready, hemit | hunassigned | htruncated | hrefused⟩
  · exact h
  · obtain ⟨i, rest, raw, hd, hle, hraw, rfl⟩ := hemit
    exact emit_inv h hready (recordOk_of_decode hd hraw) hle
  · obtain ⟨b, hb, hdesc, rfl⟩ := hunassigned
    exact takeFault_inv h hready nofun ⟨rfl, hb, rfl, hdesc⟩
  · obtain ⟨b, hb, hdesc, havail, rfl⟩ := htruncated
    have hinside := memRead_lt hb
    exact takeFault_inv h hready nofun ⟨rfl, hb, rfl, by rw [takeFault_faultAvail]; omega,
      by rw [takeFault_faultAvail]; omega, hdesc⟩
  · obtain ⟨r, reg, mod, rm, hr, rfl⟩ := hrefused
    exact takeRefusal_inv h hready (immRmRefusal_ne_none hr)

/-- Settles O44: a step emits a sound record, takes a fault at the cursor, or takes a refusal, and each keeps Inv. -/
theorem stepKeepsInvariant : Obligations.StepKeepsInvariant := by
  unfold Obligations.StepKeepsInvariant
  exact fun _ _ => step_inv

/-! ### What the invariant gives -/

/-- Settles O45: outside READY a step answers the state itself; in READY it is the outcome of `decodeAt`, which a
complete stream defines below N. -/
theorem stepNeverReadsOutsideStream : Obligations.StepNeverReadsOutsideStream := by
  unfold Obligations.StepNeverReadsOutsideStream
  intro s h
  by_cases hready : s.status = .ready
  · obtain ⟨r, -, hstep⟩ := stepAppliesDecodeAt s h.stream_complete hready (h.ready_inside hready)
    exact ⟨_, hstep⟩
  · refine ⟨s, terminalStatesIgnoreStep s ?_⟩
    cases hs : s.status with
    | ready => exact absurd hs hready
    | _ => rfl

/-- A memory whose offsets strictly rise is in canonical form. -/
theorem Memory.wf_of_pairwise {m : Memory} (h : (m.map Prod.fst).Pairwise (· < ·)) : Memory.wf m = true := by
  induction m with
  | nil => rfl
  | cons c m ih =>
    rw [List.map_cons, List.pairwise_cons] at h
    obtain ⟨hlt, htail⟩ := h
    cases m with
    | nil => rfl
    | cons d m => exact (Memory.wf_cons_cons c d m).mpr ⟨hlt d.1 (by simp), ih htail⟩

/-- Settles O46: the listed offsets are `0 .. N-1`, which rise, and each of them reads. -/
theorem invariantStreamIsCanonical : Obligations.InvariantStreamIsCanonical := by
  unfold Obligations.InvariantStreamIsCanonical
  intro s h
  refine ⟨Memory.wf_of_pairwise ?_, fun a => ⟨fun hsome => ?_, fun hlt => ?_⟩⟩
  · rw [h.stream_complete]
    exact List.pairwise_lt_range
  · obtain ⟨b, hb⟩ := Option.isSome_iff_exists.mp hsome
    exact memRead_lt hb
  · obtain ⟨b, hb⟩ := memRead_of_complete h.stream_complete hlt
    rw [hb]
    rfl

/-! ### Records end to end (10_state.md R33) -/

/-- A record put at the stop extends the records to its own end. -/
theorem outFrom_append {start stop : Nat} {out : List Record} {rec : Record} (h : OutFrom start out stop)
    (hrec : rec.offset = stop) : OutFrom start (out ++ [rec]) (stop + rec.length) := by
  induction out generalizing start with
  | nil =>
    obtain rfl : stop = start := h
    exact ⟨hrec, rfl⟩
  | cons first out ih =>
    obtain ⟨hfirst, hrest⟩ := h
    exact ⟨hfirst, ih hrest⟩

theorem outFrom_totalLength {start stop : Nat} {out : List Record} (h : OutFrom start out stop) :
    start + totalLength out = stop := by
  induction out generalizing start with
  | nil => exact h.symm
  | cons first out ih =>
    obtain ⟨-, hrest⟩ := h
    rw [totalLength, ← Nat.add_assoc, ih hrest]

theorem start_le_offset {start stop : Nat} {out : List Record} (h : OutFrom start out stop) :
    ∀ rec ∈ out, start ≤ rec.offset := by
  induction out generalizing start with
  | nil => nofun
  | cons first out ih =>
    obtain ⟨hfirst, hrest⟩ := h
    intro rec hmem
    rcases List.mem_cons.mp hmem with rfl | hmem
    · exact hfirst.ge
    · exact Nat.le_of_add_right_le (ih hrest rec hmem)

/-- Records end to end, none of them empty, have strictly rising offsets. -/
theorem offsets_pairwise_lt {start stop : Nat} {out : List Record} (h : OutFrom start out stop)
    (hpos : ∀ rec ∈ out, 0 < rec.length) : (out.map Record.offset).Pairwise (· < ·) := by
  induction out generalizing start with
  | nil => exact List.Pairwise.nil
  | cons first out ih =>
    obtain ⟨hfirst, hrest⟩ := h
    rw [List.map_cons, List.pairwise_cons]
    refine ⟨?_, ih hrest fun rec hmem => hpos rec (List.mem_cons_of_mem first hmem)⟩
    intro offset hmem
    obtain ⟨rec, hrec, rfl⟩ := List.mem_map.mp hmem
    have hafter := start_le_offset hrest rec hrec
    have hfirstPos := hpos first List.mem_cons_self
    omega

theorem step_outFrom {s t : State} {start : Nat} (h : OutFrom start s.out s.cursor) (hstep : step s = .next t) :
    OutFrom start t.out t.cursor := by
  rcases step_keeps_or_emits hstep with ⟨hcursor, hout⟩ | ⟨rec, hrec, rfl⟩
  · rwa [hcursor, hout]
  · exact outFrom_append h hrec.offset

/-- Settles O47: a step keeps OUT and CURSOR, or puts a record at the cursor and advances by its length. -/
theorem stepKeepsRecordsContiguous : Obligations.StepKeepsRecordsContiguous := by
  unfold Obligations.StepKeepsRecordsContiguous
  exact fun _ _ _ => step_outFrom

/-! ### Runs -/

theorem steps_succ_of_step {s t : State} (h : step s = .next t) (k : Nat) : steps (k + 1) s = steps k t := by
  simp only [steps, h]

/-- What every step keeps, every run keeps. -/
theorem steps_induction {P : State → Prop} (hkeeps : ∀ s t, P s → step s = .next t → P t) {k : Nat} {s t : State}
    (h : P s) (hrun : steps k s = .next t) : P t := by
  induction k generalizing s with
  | zero =>
    cases hrun
    exact h
  | succ k ih =>
    cases hstep : step s with
    | next s' =>
      rw [steps_succ_of_step hstep] at hrun
      exact ih (hkeeps s s' h hstep) hrun
    | fault f => simp [steps, hstep] at hrun
    | refused r => simp [steps, hstep] at hrun

/-- What holds along a run that begins at `start` inside a stream of `len` bytes. -/
structure RunFrom (start len : Nat) (s : State) : Prop where
  contiguous : OutFrom start s.out s.cursor
  lengths_pos : ∀ rec ∈ s.out, 0 < rec.length
  stream_length : s.n = len
  halted_at_end : s.status = .halted → s.cursor = s.n
  fault_at_cursor : s.status = .faulted → s.faultOffset = s.cursor

theorem afterReset_runFrom (p : Params) {body : List Byte} {start : Nat} (h : start ≤ body.length) :
    RunFrom start body.length (State.afterReset p body start) where
  contiguous := by
    rw [afterReset_out, afterReset_cursor _ _ _ h]
    rfl
  lengths_pos := by simp
  stream_length := afterReset_n p body start
  halted_at_end := by
    rw [afterReset_status _ _ _ h, afterReset_cursor _ _ _ h, afterReset_n]
    split
    · nofun
    · exact fun _ => by omega
  fault_at_cursor := by
    rw [afterReset_status _ _ _ h]
    split <;> nofun

theorem step_runFrom {start len : Nat} {s t : State} (h : RunFrom start len s) (hstep : step s = .next t) :
    RunFrom start len t := by
  have hcontiguous := step_outFrom h.contiguous hstep
  rcases step_cases hstep with ⟨-, rfl⟩ | ⟨-, hemit | hunassigned | htruncated | hrefused⟩
  · exact h
  · obtain ⟨i, rest, raw, -, -, -, rfl⟩ := hemit
    refine ⟨hcontiguous, ?_, h.stream_length, ?_, fun hf => absurd hf (emit_status_ne_faulted s _)⟩
    · rw [emit_out]
      intro rec hmem
      rcases List.mem_append.mp hmem with hold | hnew
      · exact h.lengths_pos rec hold
      · obtain rfl := List.mem_singleton.mp hnew
        exact Nat.lt_of_lt_of_le Nat.zero_lt_two (two_le_length i)
    · rw [emit_status, emit_cursor, emit_n]
      split
      · exact fun _ => ‹_›
      · nofun
  · obtain ⟨b, -, -, rfl⟩ := hunassigned
    exact ⟨hcontiguous, h.lengths_pos, h.stream_length, nofun, fun _ => rfl⟩
  · obtain ⟨b, -, -, -, rfl⟩ := htruncated
    exact ⟨hcontiguous, h.lengths_pos, h.stream_length, nofun, fun _ => rfl⟩
  · obtain ⟨r, reg, mod, rm, -, rfl⟩ := hrefused
    exact ⟨hcontiguous, h.lengths_pos, h.stream_length, nofun, nofun⟩

/-- Settles O48: `RunFrom` holds after the reset and along the run, and the clauses are read off it. -/
theorem runOffsetsAreCumulative : Obligations.RunOffsetsAreCumulative := by
  unfold Obligations.RunOffsetsAreCumulative
  intro p body start k t hstart hrun
  have h : RunFrom start body.length t :=
    steps_induction (fun _ _ => step_runFrom) (afterReset_runFrom p hstart) hrun
  have htotal := outFrom_totalLength h.contiguous
  refine ⟨h.contiguous, offsets_pairwise_lt h.contiguous h.lengths_pos, htotal, fun hhalted => ?_, fun hfaulted => ?_⟩
  · rw [htotal, h.halted_at_end hhalted, h.stream_length]
  · rw [htotal, h.fault_at_cursor hfaulted]

/-- A READY step leaves READY or advances the cursor by at least two. -/
theorem step_progress {s t : State} (hready : s.status = .ready) (hstep : step s = .next t) :
    t.status ≠ .ready ∨ (s.cursor + 2 ≤ t.cursor ∧ t.n = s.n) := by
  rcases step_cases hstep with ⟨hnot, -⟩ | ⟨-, hemit | hunassigned | htruncated | hrefused⟩
  · exact absurd hready hnot
  · obtain ⟨i, rest, raw, -, -, -, rfl⟩ := hemit
    exact .inr ⟨Nat.add_le_add_left (two_le_length i) s.cursor, rfl⟩
  · obtain ⟨b, -, -, rfl⟩ := hunassigned
    exact .inl nofun
  · obtain ⟨b, -, -, -, rfl⟩ := htruncated
    exact .inl nofun
  · obtain ⟨r, reg, mod, rm, -, rfl⟩ := hrefused
    exact .inl nofun

/-- Each step that stays READY takes two bytes, so the pairs of bytes left bound the steps. -/
theorem leaves_ready_within {s : State} (h : s.Inv) {fuel : Nat} (hfuel : (s.n - s.cursor) / 2 < fuel) :
    ∃ k t, k ≤ fuel ∧ steps k s = .next t ∧ t.status ≠ .ready := by
  induction fuel generalizing s with
  | zero => exact absurd hfuel (Nat.not_lt_zero _)
  | succ fuel ih =>
    by_cases hready : s.status = .ready
    · obtain ⟨t, hstep⟩ := stepNeverReadsOutsideStream s h
      have ht := step_inv h hstep
      rcases step_progress hready hstep with hleft | ⟨hadvance, hn⟩
      · exact ⟨1, t, Nat.succ_le_succ (Nat.zero_le _), steps_succ_of_step hstep 0, hleft⟩
      · have hrange := ht.cursor_in_range
        obtain ⟨k, u, hk, hrun, hended⟩ := ih ht (by omega)
        exact ⟨k + 1, u, Nat.succ_le_succ hk, by rw [steps_succ_of_step hstep, hrun], hended⟩
    · exact ⟨0, s, Nat.zero_le _, rfl, hready⟩

/-- Settles O49: the bound above, with the bytes left as they are. -/
theorem runLeavesReadyWithinBound : Obligations.RunLeavesReadyWithinBound := by
  unfold Obligations.RunLeavesReadyWithinBound
  exact fun _ h => leaves_ready_within h (Nat.lt_succ_self _)

end Sys2Proof.Machine
end

section
/-! SUPPORT. Proofs of the statements about the loader and the boot order (70_reset_and_hazards.md R142 to R147;
00_scope.md R7, R8; 20_memory.md R45). -/

namespace Sys2Proof.Machine

/-! ### What a loaded header holds (70_reset_and_hazards.md R142, R143, R145) -/

/-- The fields of a read header that the statements speak of, each from its own place in the file. -/
theorem readHeader_fields {file : List Byte} {h : Header} (hread : readHeader file = .ok h) :
    fileByte file 4 = .ok h.headerLen ∧ fileDword file 8 = .ok h.textSize ∧ fileDword file 12 = .ok h.dataSize ∧
      relocField file h.headerLen 32 = .ok h.relocTextSize ∧ relocField file h.headerLen 36 = .ok h.relocDataSize ∧
      relocField file h.headerLen 40 = .ok h.textBase ∧ relocField file h.headerLen 44 = .ok h.dataBase := by
  simp only [readHeader, except_bind_eq_ok] at hread
  obtain ⟨_, -, _, -, _, hlen, _, -, _, -, _, htext, _, hdata, _, -, _, -, _, -, _, -, _, hrelocText, _, hrelocData,
    _, htextBase, _, hdataBase, ⟨⟩⟩ := hread
  exact ⟨hlen, htext, hdata, hrelocText, hrelocData, htextBase, hdataBase⟩

theorem relocField_of_short {file : List Byte} {headerLen : Byte} {a : Nat} {v : BitVec 32}
    (hshort : headerLen.toNat ≤ 0x20) (h : relocField file headerLen a = .ok v) : v = 0 := by
  rw [relocField, if_pos hshort] at h
  cases h
  rfl

theorem relocField_of_long {file : List Byte} {headerLen : Byte} {a : Nat} {v : BitVec 32}
    (hlong : 0x20 < headerLen.toNat) (h : relocField file headerLen a = .ok v) : fileDword file a = .ok v := by
  rwa [relocField, if_neg (Nat.not_le.mpr hlong)] at h

theorem checkSizes_eq_ok {h : Header} :
    checkSizes h = .ok () ↔ 32 ≤ h.headerLen.toNat ∧ 0 ≤ h.textSize.toInt ∧ 0 ≤ h.dataSize.toInt := by
  unfold checkSizes
  split
  · next hlen => exact ⟨nofun, fun ⟨hle, _⟩ => absurd hlen (Nat.not_lt.mpr hle)⟩
  · next hlen =>
    split
    · next hneg => exact ⟨nofun, fun ⟨_, htext, hdata⟩ => by omega⟩
    · next hneg => exact ⟨fun _ => by omega, fun _ => rfl⟩

/-- Settles O54: each field is a `relocField`, which the header's length decides. -/
theorem relocationFieldsReadOrForcedToZero : Obligations.RelocationFieldsReadOrForcedToZero := by
  unfold Obligations.RelocationFieldsReadOrForcedToZero
  intro file image hload
  obtain ⟨-, hheader, -⟩ := load_eq_ok.mp hload
  obtain ⟨-, -, -, hrelocText, hrelocData, htextBase, hdataBase⟩ := readHeader_fields hheader
  constructor
  · intro hshort
    exact ⟨relocField_of_short hshort hrelocText, relocField_of_short hshort hrelocData,
      relocField_of_short hshort htextBase, relocField_of_short hshort hdataBase⟩
  · intro hlong
    exact ⟨relocField_of_long hlong hrelocText, relocField_of_long hlong hrelocData,
      relocField_of_long hlong htextBase, relocField_of_long hlong hdataBase⟩

/-- Settles O56: each part of `load` gives its clause; the data segment, which ends last, gives the length. -/
theorem loadedImageIsComplete : Obligations.LoadedImageIsComplete := by
  unfold Obligations.LoadedImageIsComplete
  intro file image hload
  obtain ⟨hmagic, hheader, hsizes, -, hdataSegment⟩ := load_eq_ok.mp hload
  obtain ⟨h0, h1⟩ := checkMagic_eq_ok.mp hmagic
  obtain ⟨hlen, htext, hdata, -⟩ := readHeader_fields hheader
  obtain ⟨hheaderLen, htextSize, hdataSize⟩ := checkSizes_eq_ok.mp hsizes
  obtain ⟨hfits, -⟩ := fileSegment_eq_ok.mp hdataSegment
  exact ⟨h0, h1, fileByte_eq_ok.mp hlen, htext, hdata, hheaderLen, htextSize, hdataSize, hfits⟩

/-! ### Booting (70_reset_and_hazards.md R145-R147) -/

theorem boot_eq_ok {p : Params} {file : List Byte} {start : Nat} {s : State} :
    boot p file start = .ok s ↔ ∃ image, load file = .ok image ∧ s = State.afterReset p image.text start := by
  cases hload : load file with
  | error e => simp [boot_of_load_error hload]
  | ok image => simp [boot_of_load_ok hload, eq_comm]

/-- A size that is not negative is within the bound on N (00_scope.md R7). -/
theorem toNat_le_of_toInt_nonneg {size : BitVec 32} (h : 0 ≤ size.toInt) : size.toNat ≤ 2 ^ 31 - 1 := by
  rw [BitVec.toInt_eq_toNat_cond] at h
  split at h <;> omega

/-- Settles O57: booting is `RESET` of a loaded text segment, whose size the loader has checked. -/
theorem bootEstablishesInvariant : Obligations.BootEstablishesInvariant := by
  unfold Obligations.BootEstablishesInvariant
  intro p file start s hboot
  obtain ⟨image, hload, rfl⟩ := boot_eq_ok.mp hboot
  obtain ⟨-, -, hsizes, htext, -⟩ := load_eq_ok.mp hload
  obtain ⟨-, htextSize, -⟩ := checkSizes_eq_ok.mp hsizes
  have hlength : image.text.length = image.header.textSize.toNat := fileSegment_length htext
  refine ⟨afterReset_inv p start (hlength ▸ toNat_le_of_toInt_nonneg htextSize), image, hload, ?_,
    afterReset_memRead p image.text start, ?_⟩
  · rw [afterReset_n, hlength]
  · rw [afterReset_n]
    exact afterReset_cursor p image.text start

/-- Settles O58: the default START is 0, which no body ends before. -/
theorem startDefaultsToFirstByte : Obligations.StartDefaultsToFirstByte := by
  unfold Obligations.StartDefaultsToFirstByte
  have hcursor : ∀ (p : Params) (body : List Byte), (State.afterReset p body).cursor = 0 := fun p body =>
    afterReset_cursor p body 0 (Nat.zero_le _)
  refine ⟨fun s body => ⟨_, rfl, hcursor _ body, ?_, afterReset_faultCode _ body 0 (Nat.zero_le _), fun hbody => ?_⟩,
    fun p file s hboot => ?_⟩
  · rw [afterReset_memRead, hcursor]
  · exact (afterReset_status _ body 0 (Nat.zero_le _)).trans (if_pos (List.length_pos_iff.mpr hbody))
  · obtain ⟨image, hload, rfl⟩ := boot_eq_ok.mp hboot
    exact ⟨hcursor p image.text, image, hload, by rw [afterReset_memRead, hcursor]⟩

end Sys2Proof.Machine
end

section
/-! SUPPORT. Proofs of the statements about text: displacements, operands, offsets and raw bytes (30_encoding.md R91 to
R99). -/

namespace Sys2Proof.Machine

/-- Settles O50: each sequence decodes and its record is spelled as listed. -/
theorem workedExampleTexts : Obligations.WorkedExampleTexts := by
  unfold Obligations.WorkedExampleTexts
  intro bs txt hmem
  simp only [List.mem_cons, Prod.mk.injEq, List.not_mem_nil, or_false] at hmem
  rcases hmem with ⟨rfl, rfl⟩ | ⟨rfl, rfl⟩ | ⟨rfl, rfl⟩ | ⟨rfl, rfl⟩ | ⟨rfl, rfl⟩ | ⟨rfl, rfl⟩
  all_goals exact ⟨_, rfl, by decide⟩

/-! ### Hexadecimal digits (30_encoding.md, section 8) -/

theorem hexDigit_injective : ∀ a < 16, ∀ b < 16, hexDigit a = hexDigit b → a = b := by
  decide

/-- A number is determined by its digits where it fits. -/
theorem hexText_injective {digits a b : Nat} (ha : a < 16 ^ digits) (hb : b < 16 ^ digits)
    (h : hexText digits a = hexText digits b) : a = b := by
  induction digits generalizing a b with
  | zero => omega
  | succ digits ih =>
    rw [Nat.pow_succ] at ha hb
    obtain ⟨hhigh, hlow⟩ := List.append_inj' h rfl
    have hdiv : a / 16 = b / 16 :=
      ih (Nat.div_lt_of_lt_mul (by rwa [Nat.mul_comm])) (Nat.div_lt_of_lt_mul (by rwa [Nat.mul_comm])) hhigh
    have hmod : a % 16 = b % 16 :=
      hexDigit_injective _ (Nat.mod_lt _ (by decide)) _ (Nat.mod_lt _ (by decide)) (List.cons.inj hlow).1
    omega

theorem hex2_injective {a b : Nat} (ha : a < 256) (hb : b < 256) (h : hex2 a = hex2 b) : a = b := by
  rw [← hexText_two, ← hexText_two] at h
  exact hexText_injective ha hb h

theorem hex4_injective {a b : Nat} (ha : a < 65536) (hb : b < 65536) (h : hex4 a = hex4 b) : a = b := by
  rw [← hexText_four, ← hexText_four] at h
  exact hexText_injective ha hb h

/-- The digit of place `k`, counted from the right. -/
theorem hexText_getElem? {digits k : Nat} (hk : k < digits) (v : Nat) :
    (hexText digits v)[digits - 1 - k]? = some (hexDigit (v / 16 ^ k % 16)) := by
  induction digits generalizing k v with
  | zero => exact absurd hk (Nat.not_lt_zero k)
  | succ digits ih =>
    rw [hexText]
    cases k with
    | zero => simp
    | succ k =>
      have hindex : digits + 1 - 1 - (k + 1) = digits - 1 - k := by omega
      rw [hindex, List.getElem?_append_left (by rw [hexText_length]; omega), ih (by omega), Nat.div_div_eq_div_mul,
        Nat.pow_succ']

/-! ### Raw bytes (30_encoding.md R99) -/

theorem rawText_drop (bs : List Byte) (k : Nat) : (rawText bs).drop (2 * k) = rawText (bs.drop k) := by
  induction k generalizing bs with
  | zero => rfl
  | succ k ih =>
    cases bs with
    | nil => rfl
    | cons b bs => exact ih bs

theorem rawText_injective {bs bs' : List Byte} (h : rawText bs = rawText bs') : bs = bs' := by
  induction bs generalizing bs' with
  | nil =>
    cases bs' with
    | nil => rfl
    | cons b' bs' => cases h
  | cons b bs ih =>
    cases bs' with
    | nil => cases h
    | cons b' bs' =>
      obtain ⟨hbyte, hrest⟩ := List.append_inj h rfl
      rw [BitVec.eq_of_toNat_eq (hex2_injective b.isLt b'.isLt hbyte), ih hrest]

/-- Settles O59: an offset that fits is spelled by `hexText`, and the raw bytes by two digits each. -/
theorem offsetAndRawSpelling : Obligations.OffsetAndRawSpelling := by
  unfold Obligations.OffsetAndRawSpelling
  refine ⟨fun digits offset => ⟨offsetText_length digits offset, fun hfits k hk => ?place⟩, ?offsets, ?rawBytes,
    fun _ _ => rawText_injective⟩
  case place => rw [offsetText_of_fits hfits, hexText_getElem? hk]
  case offsets =>
    intro digits offset offset' hfits hfits' h
    rw [offsetText_of_fits hfits, offsetText_of_fits hfits'] at h
    exact hexText_injective hfits hfits' h
  case rawBytes =>
    intro bs k b hb
    obtain ⟨hk, rfl⟩ := List.getElem?_eq_some_iff.mp hb
    have hhigh : bs[k].toNat / 16 % 16 = bs[k].toNat / 16 :=
      Nat.mod_eq_of_lt (Nat.div_lt_of_lt_mul bs[k].isLt)
    rw [rawText_drop, List.drop_eq_getElem_cons hk, rawText, hex2, hhigh]
    rfl

/-! ### Displacements (30_encoding.md R94, R95) -/

theorem signedText_of_nonneg (hex : Nat → Text) {v : Int} (h : 0 ≤ v) : signedText hex v = '+' :: hex v.natAbs :=
  if_pos h

theorem signedText_of_neg (hex : Nat → Text) {v : Int} (h : v < 0) : signedText hex v = '-' :: hex v.natAbs :=
  if_neg (Int.not_le.mpr h)

theorem signedText_length {hex : Nat → Text} {k : Nat} (hlen : ∀ m, (hex m).length = k) (v : Int) :
    (signedText hex v).length = k + 1 := by
  unfold signedText
  split <;> simp [hlen]

/-- The sign and the magnitude's digits determine the value. -/
theorem signedText_injective {hex : Nat → Text} {v v' : Int}
    (hhex : hex v.natAbs = hex v'.natAbs → v.natAbs = v'.natAbs) (h : signedText hex v = signedText hex v') :
    v = v' := by
  rcases Int.lt_or_le v 0 with hv | hv <;> rcases Int.lt_or_le v' 0 with hv' | hv'
  · rw [signedText_of_neg hex hv, signedText_of_neg hex hv'] at h
    have hmagnitude := hhex (List.cons.inj h).2
    omega
  · rw [signedText_of_neg hex hv, signedText_of_nonneg hex hv'] at h
    simp at h
  · rw [signedText_of_nonneg hex hv, signedText_of_neg hex hv'] at h
    simp at h
  · rw [signedText_of_nonneg hex hv, signedText_of_nonneg hex hv'] at h
    have hmagnitude := hhex (List.cons.inj h).2
    omega

/-- The spelling of a two's-complement value: the pattern below the middle, its complement from there on. -/
theorem signedText_toInt (hex : Nat → Text) {k : Nat} (v : BitVec k) :
    signedText hex v.toInt =
      if 2 * v.toNat < 2 ^ k then '+' :: hex v.toNat else '-' :: hex (2 ^ k - v.toNat) := by
  have hv := v.isLt
  have htoInt := BitVec.toInt_eq_toNat_cond v
  split at htoInt
  · next hlow => rw [htoInt, if_pos hlow, signedText_of_nonneg hex (by omega), Int.natAbs_natCast]
  · next hhigh =>
    have habs : v.toInt.natAbs = 2 ^ k - v.toNat := by omega
    rw [if_neg hhigh, signedText_of_neg hex (by omega), habs]

/-- Settles O51: the sign-extended byte has the byte's own value, and both widths are split at their middle. -/
theorem displacementSpelling : Obligations.DisplacementSpelling := by
  unfold Obligations.DisplacementSpelling
  constructor
  · intro d
    rw [dispText, sext16_toInt, signedText_toInt]
    congr 1
    exact propext (by omega)
  · intro v
    rw [dispText, signedText_toInt]
    congr 1
    exact propext (by omega)

end Sys2Proof.Machine
end

section
/-! SUPPORT. Proof that the text of an operand determines it (30_encoding.md R67, R91 to R98). The last character of a
text tells a register, a memory operand and an immediate apart; inside the brackets, the length and the last character
tell the displacements apart. -/

namespace Sys2Proof.Machine

/-! ### The last character of a text -/

/-- A lowercase hexadecimal digit. -/
def isHexDigit (c : Char) : Bool := "0123456789abcdef".toList.contains c

theorem isHexDigit_hexDigit : ∀ v < 16, isHexDigit (hexDigit v) = true := by
  decide

/-- The text ends in a hexadecimal digit. -/
def endsInHex (t : Text) : Bool := t.getLast?.any isHexDigit

@[simp] theorem endsInHex_append_singleton (t : Text) (c : Char) : endsInHex (t ++ [c]) = isHexDigit c := by
  simp [endsInHex]

/-- A text that is not empty gives its last character to any text it ends. -/
theorem endsInHex_append (t : Text) {u : Text} (h : u ≠ []) : endsInHex (t ++ u) = endsInHex u := by
  rw [endsInHex, List.getLast?_append_of_ne_nil t h, endsInHex]

@[simp] theorem endsInHex_hex2 (v : Nat) : endsInHex (hex2 v) = true :=
  isHexDigit_hexDigit _ (Nat.mod_lt _ (by decide))

@[simp] theorem endsInHex_hex4 (v : Nat) : endsInHex (hex4 v) = true :=
  isHexDigit_hexDigit _ (Nat.mod_lt _ (by decide))

theorem endsInHex_append_signedText (t : Text) (v : Int) : endsInHex (t ++ signedText hex2 v) = true := by
  have hdigit := isHexDigit_hexDigit (v.natAbs % 16) (Nat.mod_lt _ (by decide))
  rcases Int.lt_or_le v 0 with hneg | hnonneg
  · rw [signedText_of_neg hex2 hneg, endsInHex_append t (List.cons_ne_nil _ _)]
    exact hdigit
  · rw [signedText_of_nonneg hex2 hnonneg, endsInHex_append t (List.cons_ne_nil _ _)]
    exact hdigit

/-- No register's name ends in a hexadecimal digit or a bracket. -/
theorem regName_last (code : RegCode) (w : Width) :
    endsInHex (regName code w) = false ∧ (regName code w).getLast? ≠ some ']' := by
  cases w <;> revert code <;> decide

/-- The three forms of an operand. -/
inductive OperandForm where
  | reg
  | mem
  | imm

/-- The form of an operand. -/
def operandForm : Operand → OperandForm
  | .reg _ _ => .reg
  | .mem _ _ _ => .mem
  | .imm8 _ => .imm
  | .imm16 _ => .imm

/-- The form that a text's last character tells. -/
def textForm (t : Text) : OperandForm :=
  if endsInHex t then .imm else if t.getLast? = some ']' then .mem else .reg

theorem textForm_text (o : Operand) : textForm (Operand.text o) = operandForm o := by
  cases o with
  | reg w code =>
    obtain ⟨hhex, hbracket⟩ := regName_last code w
    rw [Operand.text, textForm, hhex, if_neg hbracket]
    rfl
  | mem base disp size =>
    have hlast : Operand.text (.mem base disp size) =
        (sizeText size ++ '[' :: (baseText base disp ++ dispText disp)) ++ [']'] := by
      simp [Operand.text]
    rw [hlast, textForm, endsInHex_append_singleton, List.getLast?_concat]
    rfl
  | imm8 v => rw [Operand.text, textForm, endsInHex_hex2]; rfl
  | imm16 v => rw [Operand.text, textForm, endsInHex_hex4]; rfl

/-! ### Inside the brackets -/

/-- The text between the brackets of a memory operand. -/
def addressText (base : EaBase) (disp : Disp) : Text := baseText base disp ++ dispText disp

/-- What a base's text is like: two or five characters, the last of them no digit. -/
theorem eaBaseText_shape {base : EaBase} (h : base ≠ .direct) :
    ((eaBaseText base).length = 2 ∨ (eaBaseText base).length = 5) ∧ endsInHex (eaBaseText base) = false := by
  cases base with
  | direct => exact absurd rfl h
  | _ => decide

theorem eaBaseText_injective {base base' : EaBase} (h : base ≠ .direct) (h' : base' ≠ .direct)
    (heq : eaBaseText base = eaBaseText base') : base = base' := by
  revert h h' heq
  cases base <;> cases base' <;> decide

/-- The four forms of a displacement. -/
inductive DispForm where
  | noDisp
  | d8
  | d16
  | addr

/-- The form of a displacement. -/
def dispForm : Disp → DispForm
  | .noDisp => .noDisp
  | .d8 _ => .d8
  | .d16 _ => .d16
  | .addr _ => .addr

/-- The form that the length and the last character of a bracketed text tell: an address has 4 characters, a base 2 or
5, a base with two digits 5 or 8, a base with four digits 7 or 10. -/
def addressForm (t : Text) : DispForm :=
  if t.length = 4 then .addr
  else if t.length = 7 ∨ t.length = 10 then .d16
  else if endsInHex t then .d8
  else .noDisp

theorem base_ne_direct {base : EaBase} {disp : Disp} {size : SizeKw} (h : Operand.wf (.mem base disp size) = true)
    (hform : ∀ a, disp ≠ .addr a) : base ≠ .direct := by
  cases disp with
  | addr a => exact absurd rfl (hform a)
  | _ => rintro rfl; simp [Operand.wf] at h

theorem addressForm_addressText {base : EaBase} {disp : Disp} {size : SizeKw}
    (h : Operand.wf (.mem base disp size) = true) : addressForm (addressText base disp) = dispForm disp := by
  cases disp with
  | addr a => simp [addressText, baseText, dispText, addressForm, dispForm]
  | noDisp =>
    obtain ⟨hlen, hlast⟩ := eaBaseText_shape (base_ne_direct h nofun)
    have htext : addressText base .noDisp = eaBaseText base := List.append_nil _
    rw [htext, addressForm, hlast]
    rcases hlen with hlen | hlen <;> rw [hlen] <;> rfl
  | d8 v =>
    obtain ⟨hlen, -⟩ := eaBaseText_shape (base_ne_direct h nofun)
    have hdisp : (addressText base (.d8 v)).length = (eaBaseText base).length + 3 := by
      rw [addressText, List.length_append, baseText, dispText, signedText_length hex2_length]
    have hcase : ¬ ((addressText base (.d8 v)).length = 7 ∨ (addressText base (.d8 v)).length = 10) := by omega
    rw [addressForm, if_neg (by omega), if_neg hcase, addressText, dispText, endsInHex_append_signedText]
    rfl
  | d16 v =>
    obtain ⟨hlen, -⟩ := eaBaseText_shape (base_ne_direct h nofun)
    have hdisp : (addressText base (.d16 v)).length = (eaBaseText base).length + 5 := by
      rw [addressText, List.length_append, baseText, dispText, signedText_length hex4_length]
    have hcase : (addressText base (.d16 v)).length = 7 ∨ (addressText base (.d16 v)).length = 10 := by omega
    rw [addressForm, if_neg (by omega), if_pos hcase]
    rfl

/-- A base with a signed displacement of a fixed number of digits comes apart in one way. -/
theorem base_signedText_inj {hex : Nat → Text} {k : Nat} (hlen : ∀ m, (hex m).length = k) {base base' : EaBase}
    {v v' : Int} (h : base ≠ .direct) (h' : base' ≠ .direct)
    (hhex : hex v.natAbs = hex v'.natAbs → v.natAbs = v'.natAbs)
    (heq : eaBaseText base ++ signedText hex v = eaBaseText base' ++ signedText hex v') : base = base' ∧ v = v' := by
  obtain ⟨hbase, hdisp⟩ :=
    List.append_inj' heq ((signedText_length hlen v).trans (signedText_length hlen v').symm)
  exact ⟨eaBaseText_injective h h' hbase, signedText_injective hhex hdisp⟩

/-- A well-formed byte displacement has a magnitude of two digits. -/
theorem natAbs_d8_lt {base : EaBase} {v : Word} {size : SizeKw} (h : Operand.wf (.mem base (.d8 v) size) = true) :
    v.toInt.natAbs < 256 := by
  simp only [Operand.wf, Bool.and_eq_true, beq_iff_eq] at h
  have hlo := BitVec.le_toInt (v.setWidth 8)
  have hhi := BitVec.toInt_lt (x := v.setWidth 8)
  rw [h.2, sext16_toInt]
  omega

theorem natAbs_word_lt (v : Word) : v.toInt.natAbs < 65536 := by
  have hlo := BitVec.le_toInt v
  have hhi := BitVec.toInt_lt (x := v)
  omega

/-- The text between the brackets determines base and displacement. -/
theorem addressText_injective {base base' : EaBase} {disp disp' : Disp} {size : SizeKw}
    (h : Operand.wf (.mem base disp size) = true) (h' : Operand.wf (.mem base' disp' size) = true)
    (heq : addressText base disp = addressText base' disp') : base = base' ∧ disp = disp' := by
  have hform : dispForm disp = dispForm disp' := by
    rw [← addressForm_addressText h, ← addressForm_addressText h', heq]
  cases disp <;> cases disp' <;> cases hform
  case noDisp.noDisp.refl =>
    rw [addressText, addressText, baseText, baseText, dispText, List.append_nil, List.append_nil] at heq
    exact ⟨eaBaseText_injective (base_ne_direct h nofun) (base_ne_direct h' nofun) heq, rfl⟩
  case d8.d8.refl v v' =>
    obtain ⟨hbase, hv⟩ := base_signedText_inj hex2_length (base_ne_direct h nofun) (base_ne_direct h' nofun)
      (hex2_injective (natAbs_d8_lt h) (natAbs_d8_lt h')) heq
    exact ⟨hbase, congrArg Disp.d8 (BitVec.eq_of_toInt_eq hv)⟩
  case d16.d16.refl v v' =>
    obtain ⟨hbase, hv⟩ := base_signedText_inj hex4_length (base_ne_direct h nofun) (base_ne_direct h' nofun)
      (hex4_injective (natAbs_word_lt v) (natAbs_word_lt v')) heq
    exact ⟨hbase, congrArg Disp.d16 (BitVec.eq_of_toInt_eq hv)⟩
  case addr.addr.refl a a' =>
    have hdirect : base = .direct ∧ base' = .direct := by simpa [Operand.wf] using And.intro h h'
    obtain ⟨rfl, rfl⟩ := hdirect
    have hdigits := hex4_injective a.isLt a'.isLt (List.append_cancel_right heq)
    exact ⟨rfl, congrArg Disp.addr (BitVec.eq_of_toNat_eq hdigits)⟩

/-- The size keyword ends where the bracket opens. -/
theorem sizeText_bracket_inj {size size' : SizeKw} {t t' : Text}
    (h : sizeText size ++ '[' :: t = sizeText size' ++ '[' :: t') : size = size' ∧ t = t' := by
  cases size <;> cases size' <;> simp_all [sizeText]

/-- Settles O52: texts of one form are compared within it: registers by name, memory operands by keyword and address,
immediates by width and digits. -/
theorem operandTextDeterminesOperand : Obligations.OperandTextDeterminesOperand := by
  unfold Obligations.OperandTextDeterminesOperand
  intro o o' h h' heq
  have hform : operandForm o = operandForm o' := by
    rw [← textForm_text, ← textForm_text, heq]
  cases o <;> cases o' <;> cases hform
  case reg.reg.refl w code w' code' =>
    obtain ⟨rfl, rfl⟩ := regName_injective heq
    rfl
  case mem.mem.refl base disp size base' disp' size' =>
    obtain ⟨rfl, hbody⟩ := sizeText_bracket_inj heq
    obtain ⟨rfl, rfl⟩ := addressText_injective h h' (List.append_cancel_right hbody)
    rfl
  case imm8.imm8.refl v v' => rw [BitVec.eq_of_toNat_eq (hex2_injective v.isLt v'.isLt heq)]
  case imm16.imm16.refl v v' => rw [BitVec.eq_of_toNat_eq (hex4_injective v.isLt v'.isLt heq)]
  case imm8.imm16.refl v v' =>
    exact absurd (congrArg List.length heq) (by simp [Operand.text])
  case imm16.imm8.refl v v' =>
    exact absurd (congrArg List.length heq) (by simp [Operand.text])

end Sys2Proof.Machine
end
